-- ==== Sys2Proof/Word.lean ====
section
/-! DEFINITION. The machine word and the byte (00_scope.md R3 `XLEN`, R7; 10_state.md R11). -/

namespace Sys2Proof

/-- A general register, an address, an instruction word: 32 bits (R11, R50). -/
abbrev Word := BitVec 32

/-- One byte of data memory (R7, R30). -/
abbrev Byte := BitVec 8

end Sys2Proof
end

