-- ==== Sys2Proof/Config.lean ====
section
/-! DEFINITION. The parameters of the model (00_scope.md R3): the fixed ones as constants, the OPEN ones as the fields of
`Config`, which a launch chooses and no step changes. -/

namespace Sys2Proof

/-- `REGS_PER_FILE`: each register file has 16 or 32 registers (R3, R12). -/
inductive RegsPerFile where
  | r16
  | r32
  deriving DecidableEq, Repr

/-- The number of registers in each file. -/
def RegsPerFile.count : RegsPerFile → Nat
  | .r16 => 16
  | .r32 => 32

/-- `ENDIAN`: the byte order of data memory (R3, R32). -/
inductive Endian where
  | little
  | big
  deriving DecidableEq, Repr

/-- A run of byte addresses `base`, …, `base + size - 1`. -/
structure Region where
  base : Nat
  size : Nat
  deriving DecidableEq, Repr

/-- The OPEN parameters of R3, held by a launch. -/
structure Config where
  /-- `REGS_PER_FILE` (R12). -/
  regsPerFile : RegsPerFile
  /-- `ENDIAN` (R32). -/
  endian : Endian
  /-- `alloc`: the byte addresses the launch owns (R41), as a union of regions. -/
  alloc : List Region
  /-- `prog`: the program text (R17, R31), immutable (R47). -/
  prog : List Word
  /-- `prog_base`: the byte address of word 0 of `prog` (R31); read by the listing only. -/
  progBase : Word
  deriving DecidableEq, Repr

/-- `LOAD_LATENCY` (R3, R182): cycles from a load's issue until its `dst` holds the value. -/
def loadLatency : Nat := 5

/-- `ADDR_LATENCY` (R3, R184): cycles from issue until a modified base register (or an ADDA/SUBA result) is in place. -/
def addrLatency : Nat := 1

/-- `FETCH_PACKET_INSTRS` (R3, R51). -/
def fetchPacketInstrs : Nat := 8

/-- DESIGN CHOICE (log 2, 3, 4): the parameters of the reset state. `REGS_PER_FILE` = 32 and little-endian are the spec's
defaults (D2, D5); the whole address space is allocated and no program is loaded. So `alloc` holds the byte addresses of any
program placed beside it: an overlap R47 puts outside the model, run here as if `prog` were apart from `mem` (log 27). -/
def Config.default : Config where
  regsPerFile := .r32
  endian := .little
  alloc := [⟨0, 2 ^ 32⟩]
  prog := []
  progBase := 0

end Sys2Proof
end

