-- ==== Sys2Proof/Syntax.lean ====
section
/-! DEFINITION. The instructions, one constructor per row of spec/opcode_table.json, over operand forms that carry every
field of the word but the opcode and the fields R52 and R58 fix (`p`, `creg`, `z`). -/

namespace Sys2Proof

/-- The register files (R10). -/
inductive RegFile where
  | A
  | B
  deriving DecidableEq, Repr

/-- A five-bit register index (R64). -/
abbrev RegIdx := Fin 32

/-- A general register: file and index (R12). -/
structure Reg where
  file : RegFile
  idx : RegIdx
  deriving DecidableEq, Repr

/-- The data-addressing units (R10). -/
inductive DUnit where
  | D1
  | D2
  deriving DecidableEq, Repr

/-- `.D1` works with file A, `.D2` with file B (R10, R59). -/
def DUnit.file : DUnit → RegFile
  | .D1 => .A
  | .D2 => .B

/-- Whether the offset is added or subtracted (R61). -/
inductive Sign where
  | add
  | sub
  deriving DecidableEq, Repr

/-- What a load or store does to its base register (R61): leave it, write it and use the new value, or write it and use
the old value. -/
inductive Update where
  | keep
  | pre
  | post
  deriving DecidableEq, Repr

/-- The offset operand of a load, store, ADDA or SUBA before scaling (R66, R68). -/
inductive Offset where
  | cst (ucst5 : BitVec 5)
  | reg (offsetR : RegIdx)
  deriving DecidableEq, Repr

/-- The data lengths (R7): byte, halfword, word, doubleword. -/
inductive DataLen where
  | byte
  | half
  | word
  | dword
  deriving DecidableEq, Repr

/-- Operands of format LS (R53): the unit (`y`), the base register, the address mode (R61: `update`, `sign` and the kind of
`offset` make exactly its twelve rows) and the data register (`dst` of a load, `src` of a store; `s` gives its file). -/
structure LsOp where
  unit : DUnit
  baseR : RegIdx
  update : Update
  sign : Sign
  offset : Offset
  data : Reg
  deriving DecidableEq, Repr

/-- The base registers of format LS15 (R54): `y` = 0 is B14, `y` = 1 is B15. -/
inductive Base15 where
  | B14
  | B15
  deriving DecidableEq, Repr

/-- Operands of format LS15 (R54): `*+B14/B15[ucst15]` and the data register. -/
structure Ls15Op where
  base : Base15
  ucst15 : BitVec 15
  data : Reg
  deriving DecidableEq, Repr

/-- Operands of format DA with a register offset (R55): all in the file of the unit. -/
structure DaRegOp where
  unit : DUnit
  src2 : RegIdx
  src1 : RegIdx
  dst : RegIdx
  deriving DecidableEq, Repr

/-- Operands of format DA with a constant offset (R55). -/
structure DaCstOp where
  unit : DUnit
  src2 : RegIdx
  ucst5 : BitVec 5
  dst : RegIdx
  deriving DecidableEq, Repr

/-- The fields of format M (R57), kept so that the refused word can be written back. -/
structure MOp where
  dst : RegIdx
  src2 : RegIdx
  src1 : RegIdx
  x : Bool
  s : Bool
  deriving DecidableEq, Repr

/-- The instructions: one constructor per row of spec/opcode_table.json. -/
inductive Instr where
  -- format LS
  | ldhu (o : LsOp)
  | ldbu (o : LsOp)
  | ldb (o : LsOp)
  | stb (o : LsOp)
  | ldh (o : LsOp)
  | sth (o : LsOp)
  | ldw (o : LsOp)
  | stw (o : LsOp)
  | ldnw (o : LsOp)
  | stdw (o : LsOp)
  | stnw (o : LsOp)
  | lddw (o : LsOp)
  -- format LS15
  | ldhu15 (o : Ls15Op)
  | ldbu15 (o : Ls15Op)
  | ldb15 (o : Ls15Op)
  | stb15 (o : Ls15Op)
  | ldh15 (o : Ls15Op)
  | sth15 (o : Ls15Op)
  | ldw15 (o : Ls15Op)
  | stw15 (o : Ls15Op)
  -- format DA
  | addabR (o : DaRegOp)
  | addabC (o : DaCstOp)
  | addahR (o : DaRegOp)
  | addahC (o : DaCstOp)
  | addawR (o : DaRegOp)
  | addawC (o : DaCstOp)
  | addadR (o : DaRegOp)
  | addadC (o : DaCstOp)
  | subabR (o : DaRegOp)
  | subabC (o : DaCstOp)
  | subahR (o : DaRegOp)
  | subahC (o : DaCstOp)
  | subawR (o : DaRegOp)
  | subawC (o : DaCstOp)
  -- format NOP: `NOP n` with n = cnt + 1
  | nop (cnt : BitVec 4)
  -- named and refused (R119, R151)
  | mpyh (o : MOp)
  | ldndw (o : LsOp)
  | stndw (o : LsOp)
  deriving DecidableEq, Repr

/-- The base register of a format LS operand: in the file of the unit (R59, R115). -/
def LsOp.base (o : LsOp) : Reg := ⟨o.unit.file, o.baseR⟩

/-- The odd register of a pair whose even register is `r` (R16). -/
def Reg.pairOdd (r : Reg) : Reg := ⟨r.file, r.idx + 1⟩

/-- The base register of format LS15 (R54). -/
def Base15.reg : Base15 → Reg
  | .B14 => ⟨.B, 14⟩
  | .B15 => ⟨.B, 15⟩

end Sys2Proof
end

