-- ==== Sys2Proof/WellFormed.lean ====
section
/-! DEFINITION. Which terms of `Instr` are instructions of the machine: the registers exist (R12, R64), a pair is named by its
even register (R65), a load does not write the base it modifies (R116), a NOP lasts 1 to 9 cycles (R56). -/

namespace Sys2Proof

/-- The register index an offset operand names, if any. -/
def Offset.regIdx : Offset → List RegIdx
  | .cst _ => []
  | .reg r => [r]

/-- The register indices an LS word names: base, offset register, data register. -/
def LsOp.regIdx (o : LsOp) : List RegIdx := o.baseR :: (o.offset.regIdx ++ [o.data.idx])

/-- Every index names a register of the machine (R12, R64). -/
def regsExist (n : RegsPerFile) (l : List RegIdx) : Bool := l.all fun r => decide (r.val < n.count)

/-- The load writes a register of `dsts` and also its base (R116). -/
def LsOp.writesOwnBase (o : LsOp) (dsts : List Reg) : Bool :=
  decide (o.update ≠ .keep) && dsts.contains o.base

/-- A load of one register: registers that exist, and not into the base it modifies. -/
abbrev LsOp.LoadOk (n : RegsPerFile) (o : LsOp) : Prop :=
  regsExist n o.regIdx = true ∧ o.writesOwnBase [o.data] = false

/-- A load of a pair: even register, and neither of the pair is the base it modifies. -/
abbrev LsOp.LoadPairOk (n : RegsPerFile) (o : LsOp) : Prop :=
  regsExist n o.regIdx = true ∧ o.data.idx.val % 2 = 0 ∧ o.writesOwnBase [o.data, o.data.pairOdd] = false

/-- A store of one register; it may be the modified base (R111). -/
abbrev LsOp.StoreOk (n : RegsPerFile) (o : LsOp) : Prop := regsExist n o.regIdx = true

/-- A store of a pair. -/
abbrev LsOp.StorePairOk (n : RegsPerFile) (o : LsOp) : Prop :=
  regsExist n o.regIdx = true ∧ o.data.idx.val % 2 = 0

/-- Format LS15: the data register exists; B14 and B15 always do. -/
abbrev Ls15Op.Ok (n : RegsPerFile) (o : Ls15Op) : Prop := regsExist n [o.data.idx] = true

/-- Format DA, register offset. -/
abbrev DaRegOp.Ok (n : RegsPerFile) (o : DaRegOp) : Prop := regsExist n [o.src2, o.src1, o.dst] = true

/-- Format DA, constant offset. -/
abbrev DaCstOp.Ok (n : RegsPerFile) (o : DaCstOp) : Prop := regsExist n [o.src2, o.dst] = true

/-- The instruction is one of a machine with `n` registers per file. LDNDW, STNDW and MPYH have no condition: their opcode
alone names them (R74). -/
abbrev WellFormed (n : RegsPerFile) : Instr → Prop
  | .ldhu o => o.LoadOk n
  | .ldbu o => o.LoadOk n
  | .ldb o => o.LoadOk n
  | .stb o => o.StoreOk n
  | .ldh o => o.LoadOk n
  | .sth o => o.StoreOk n
  | .ldw o => o.LoadOk n
  | .stw o => o.StoreOk n
  | .ldnw o => o.LoadOk n
  | .stdw o => o.StorePairOk n
  | .stnw o => o.StoreOk n
  | .lddw o => o.LoadPairOk n
  | .ldhu15 o => o.Ok n
  | .ldbu15 o => o.Ok n
  | .ldb15 o => o.Ok n
  | .stb15 o => o.Ok n
  | .ldh15 o => o.Ok n
  | .sth15 o => o.Ok n
  | .ldw15 o => o.Ok n
  | .stw15 o => o.Ok n
  | .addabR o => o.Ok n
  | .addabC o => o.Ok n
  | .addahR o => o.Ok n
  | .addahC o => o.Ok n
  | .addawR o => o.Ok n
  | .addawC o => o.Ok n
  | .addadR o => o.Ok n
  | .addadC o => o.Ok n
  | .subabR o => o.Ok n
  | .subabC o => o.Ok n
  | .subahR o => o.Ok n
  | .subahC o => o.Ok n
  | .subawR o => o.Ok n
  | .subawC o => o.Ok n
  | .nop cnt => cnt.toNat ≤ 8
  | .mpyh _ => True
  | .ldndw _ => True
  | .stndw _ => True

end Sys2Proof
end

