-- ==== Sys2Proof/Decode.lean ====
section
/-! DEFINITION. Decoding (30_encoding.md R74): total on every word, rejecting by name; and the encoder, written from the same
format tables (R53 to R57, R61, R63). -/

namespace Sys2Proof

/-- Why a word is no instruction of the model (R162). -/
inductive Reject where
  /-- `p` = 1 (R52). -/
  | parallelPacket
  /-- `creg` or `z` not zero (R58). -/
  | conditional
  /-- `mode` 0010, 0011, 0110 or 0111 (R62). -/
  | reservedMode
  /-- `r` = 1 with `op` 000 or 001 (R63), NOP count above 8 (R56), unlisted `op6` (R55). -/
  | reservedEncoding
  /-- An odd register where LDDW and STDW name a pair (R65). -/
  | oddPairRegister
  /-- A register index not below `REGS_PER_FILE` (R12). -/
  | noSuchRegister
  /-- A load into the base register that it modifies (R116). -/
  | dstIsModifiedBase
  /-- A word of none of the formats (R152). -/
  | notInScope (w : Word)
  deriving DecidableEq, Repr

/-- Bits `lo + len - 1` down to `lo` of a word (R5 `bits[hi:lo]`). -/
def fld (w : Word) (lo len : Nat) : BitVec len := w.extractLsb' lo len

/-- A register field (R64). -/
def regFld (w : Word) (lo : Nat) : RegIdx := (fld w lo 5).toFin

/-- The file a one-bit field selects: 0 is A, 1 is B (R60). -/
def fileOfBit (b : BitVec 1) : RegFile := if b = 0#1 then .A else .B

/-- The unit a one-bit field selects: 0 is `.D1`, 1 is `.D2` (R55, R59). -/
def unitOfBit (b : BitVec 1) : DUnit := if b = 0#1 then .D1 else .D2

/-- The `mode` field (R61): what happens to the base, the direction, and whether the offset is `offsetR`. The four values
R62 reserves give `none`. -/
def decodeMode (m : BitVec 4) : Option (Update × Sign × Bool) :=
  match m.toNat with
  | 0b0000 => some (.keep, .sub, false)
  | 0b0001 => some (.keep, .add, false)
  | 0b0100 => some (.keep, .sub, true)
  | 0b0101 => some (.keep, .add, true)
  | 0b1000 => some (.pre, .sub, false)
  | 0b1001 => some (.pre, .add, false)
  | 0b1010 => some (.post, .sub, false)
  | 0b1011 => some (.post, .add, false)
  | 0b1100 => some (.pre, .sub, true)
  | 0b1101 => some (.pre, .add, true)
  | 0b1110 => some (.post, .sub, true)
  | 0b1111 => some (.post, .add, true)
  | _ => none

/-- The `r` and `op` fields of format LS (R63). -/
def decodeOp (r : BitVec 1) (op : BitVec 3) (o : LsOp) : Except Reject Instr :=
  match r.toNat, op.toNat with
  | 0, 0b000 => .ok (.ldhu o)
  | 0, 0b001 => .ok (.ldbu o)
  | 0, 0b010 => .ok (.ldb o)
  | 0, 0b011 => .ok (.stb o)
  | 0, 0b100 => .ok (.ldh o)
  | 0, 0b101 => .ok (.sth o)
  | 0, 0b110 => .ok (.ldw o)
  | 0, 0b111 => .ok (.stw o)
  | 1, 0b010 => .ok (.ldndw o)
  | 1, 0b011 => .ok (.ldnw o)
  | 1, 0b100 => .ok (.stdw o)
  | 1, 0b101 => .ok (.stnw o)
  | 1, 0b110 => .ok (.lddw o)
  | 1, 0b111 => .ok (.stndw o)
  | _, _ => .error .reservedEncoding

/-- Format LS (R53), with the checks of R74 in its order: `creg` and `z`, `mode`, then `op` and `r`. -/
def decodeLS (w : Word) : Except Reject Instr :=
  if fld w 28 4 ≠ 0#4 then .error .conditional
  else match decodeMode (fld w 9 4) with
    | none => .error .reservedMode
    | some (update, sign, byReg) =>
      decodeOp (fld w 8 1) (fld w 4 3)
        { unit := unitOfBit (fld w 7 1), baseR := regFld w 18, update := update, sign := sign,
          offset := if byReg then .reg (regFld w 13) else .cst (fld w 13 5),
          data := ⟨fileOfBit (fld w 1 1), regFld w 23⟩ }

/-- The `op` field of format LS15: the `r` = 0 instructions of R63. -/
def decodeOp15 (op : BitVec 3) (o : Ls15Op) : Except Reject Instr :=
  match op.toNat with
  | 0b000 => .ok (.ldhu15 o)
  | 0b001 => .ok (.ldbu15 o)
  | 0b010 => .ok (.ldb15 o)
  | 0b011 => .ok (.stb15 o)
  | 0b100 => .ok (.ldh15 o)
  | 0b101 => .ok (.sth15 o)
  | 0b110 => .ok (.ldw15 o)
  | _ => .ok (.stw15 o)

/-- Format LS15 (R54). -/
def decodeLS15 (w : Word) : Except Reject Instr :=
  if fld w 28 4 ≠ 0#4 then .error .conditional
  else decodeOp15 (fld w 4 3)
    { base := if fld w 7 1 = 0#1 then .B14 else .B15, ucst15 := fld w 8 15,
      data := ⟨fileOfBit (fld w 1 1), regFld w 23⟩ }

/-- The `op6` field of format DA (R55). -/
def decodeOp6 (op6 : BitVec 6) (r : DaRegOp) (c : DaCstOp) : Except Reject Instr :=
  match op6.toNat with
  | 0b110000 => .ok (.addabR r)
  | 0b110010 => .ok (.addabC c)
  | 0b110100 => .ok (.addahR r)
  | 0b110110 => .ok (.addahC c)
  | 0b111000 => .ok (.addawR r)
  | 0b111010 => .ok (.addawC c)
  | 0b111100 => .ok (.addadR r)
  | 0b111101 => .ok (.addadC c)
  | 0b110001 => .ok (.subabR r)
  | 0b110011 => .ok (.subabC c)
  | 0b110101 => .ok (.subahR r)
  | 0b110111 => .ok (.subahC c)
  | 0b111001 => .ok (.subawR r)
  | 0b111011 => .ok (.subawC c)
  | _ => .error .reservedEncoding

/-- Format DA (R55). -/
def decodeDA (w : Word) : Except Reject Instr :=
  if fld w 28 4 ≠ 0#4 then .error .conditional
  else decodeOp6 (fld w 7 6)
    { unit := unitOfBit (fld w 1 1), src2 := regFld w 18, src1 := regFld w 13, dst := regFld w 23 }
    { unit := unitOfBit (fld w 1 1), src2 := regFld w 18, ucst5 := fld w 13 5, dst := regFld w 23 }

/-- Format M (R57). DEDUCED (log 9): R58 names format M among the formats whose conditional words are refused. -/
def decodeM (w : Word) : Except Reject Instr :=
  if fld w 28 4 ≠ 0#4 then .error .conditional
  else .ok (.mpyh { dst := regFld w 23, src2 := regFld w 18, src1 := regFld w 13,
                    x := decide (fld w 12 1 = 1#1), s := decide (fld w 1 1 = 1#1) })

/-- The seven tests of R74, in order; operand checks follow in `decode`. -/
def decodeFormat (w : Word) : Except Reject Instr :=
  if fld w 0 1 = 1#1 then .error .parallelPacket
  else if fld w 17 15 = 0#15 ∧ fld w 1 12 = 0#12 then .ok (.nop (fld w 13 4))
  else if fld w 2 2 = 0b01#2 then decodeLS w
  else if fld w 2 2 = 0b11#2 then decodeLS15 w
  else if fld w 2 5 = 0b10000#5 then decodeDA w
  else if fld w 2 5 = 0b00000#5 ∧ fld w 7 5 = 0b00001#5 then decodeM w
  else .error (.notInScope w)

/-- Checks of a single-register load: registers (R64), then R116. -/
def checkLoad (n : RegsPerFile) (o : LsOp) : Option Reject :=
  if !regsExist n o.regIdx then some .noSuchRegister
  else if o.writesOwnBase [o.data] then some .dstIsModifiedBase
  else none

/-- Checks of LDDW: registers (R64), the pair (R65), then R116 for either register of the pair. -/
def checkLoadPair (n : RegsPerFile) (o : LsOp) : Option Reject :=
  if !regsExist n o.regIdx then some .noSuchRegister
  else if o.data.idx.val % 2 = 1 then some .oddPairRegister
  else if o.writesOwnBase [o.data, o.data.pairOdd] then some .dstIsModifiedBase
  else none

/-- Checks of a single-register store: registers (R64). `src` may be the modified base (R111). -/
def checkStore (n : RegsPerFile) (o : LsOp) : Option Reject :=
  if !regsExist n o.regIdx then some .noSuchRegister else none

/-- Checks of STDW: registers (R64), then the pair (R65). -/
def checkStorePair (n : RegsPerFile) (o : LsOp) : Option Reject :=
  if !regsExist n o.regIdx then some .noSuchRegister
  else if o.data.idx.val % 2 = 1 then some .oddPairRegister
  else none

/-- Checks of format LS15: the data register (R64); B14 and B15 always exist. -/
def check15 (n : RegsPerFile) (o : Ls15Op) : Option Reject :=
  if !regsExist n [o.data.idx] then some .noSuchRegister else none

/-- Checks of format DA, register form (R64). -/
def checkDaReg (n : RegsPerFile) (o : DaRegOp) : Option Reject :=
  if !regsExist n [o.src2, o.src1, o.dst] then some .noSuchRegister else none

/-- Checks of format DA, constant form (R64). -/
def checkDaCst (n : RegsPerFile) (o : DaCstOp) : Option Reject :=
  if !regsExist n [o.src2, o.dst] then some .noSuchRegister else none

/-- The first check of R74 that refuses the instruction. LDNDW, STNDW and MPYH are named by the opcode before any register
is looked at (R74), so none refuses them here. -/
def check (n : RegsPerFile) : Instr → Option Reject
  | .ldhu o => checkLoad n o
  | .ldbu o => checkLoad n o
  | .ldb o => checkLoad n o
  | .stb o => checkStore n o
  | .ldh o => checkLoad n o
  | .sth o => checkStore n o
  | .ldw o => checkLoad n o
  | .stw o => checkStore n o
  | .ldnw o => checkLoad n o
  | .stdw o => checkStorePair n o
  | .stnw o => checkStore n o
  | .lddw o => checkLoadPair n o
  | .ldhu15 o => check15 n o
  | .ldbu15 o => check15 n o
  | .ldb15 o => check15 n o
  | .stb15 o => check15 n o
  | .ldh15 o => check15 n o
  | .sth15 o => check15 n o
  | .ldw15 o => check15 n o
  | .stw15 o => check15 n o
  | .addabR o => checkDaReg n o
  | .addabC o => checkDaCst n o
  | .addahR o => checkDaReg n o
  | .addahC o => checkDaCst n o
  | .addawR o => checkDaReg n o
  | .addawC o => checkDaCst n o
  | .addadR o => checkDaReg n o
  | .addadC o => checkDaCst n o
  | .subabR o => checkDaReg n o
  | .subabC o => checkDaCst n o
  | .subahR o => checkDaReg n o
  | .subahC o => checkDaCst n o
  | .subawR o => checkDaReg n o
  | .subawC o => checkDaCst n o
  | .nop cnt => if 8 < cnt.toNat then some .reservedEncoding else none
  | .mpyh _ => none
  | .ldndw _ => none
  | .stndw _ => none

/-- The decoding procedure (R74): the format, then the checks on the operands. -/
def decode (n : RegsPerFile) (w : Word) : Except Reject Instr :=
  match decodeFormat w with
  | .error r => .error r
  | .ok i =>
    match check n i with
    | some r => .error r
    | none => .ok i

/-- The instruction the decoder reads from a word numbered as spec/opcode_table.json numbers it; every bit from `nbits` up is
0. The spec's default of 32 registers per file is used (R12). An instruction is one 32-bit word (R50). -/
def decodeTableWord (nbits w : Nat) : Option Instr :=
  if 32 < nbits then none
  else match decode .r32 (BitVec.ofNat 32 (w % 2 ^ nbits)) with
    | .ok i => some i
    | .error _ => none

/-! The encoder. -/

/-- The bit that selects a file (R60). -/
def RegFile.bit : RegFile → BitVec 1
  | .A => 0#1
  | .B => 1#1

/-- The bit that selects a unit (R55, R59). -/
def DUnit.bit : DUnit → BitVec 1
  | .D1 => 0#1
  | .D2 => 1#1

/-- The bit that selects the base of format LS15 (R54). -/
def Base15.bit : Base15 → BitVec 1
  | .B14 => 0#1
  | .B15 => 1#1

/-- The `mode` field (R61): mode[3] base written, mode[2] register offset, mode[1] post-modification, mode[0] add. -/
def encodeMode (u : Update) (s : Sign) (off : Offset) : BitVec 4 :=
  (match u with | .keep => 0#1 | .pre => 1#1 | .post => 1#1)
  ++ (match off with | .cst _ => 0#1 | .reg _ => 1#1)
  ++ (match u with | .keep => 0#1 | .pre => 0#1 | .post => 1#1)
  ++ (match s with | .sub => 0#1 | .add => 1#1)

/-- A register field (R64). -/
def encodeReg (r : RegIdx) : BitVec 5 := BitVec.ofFin r

/-- The five bits of an offset operand (R53). -/
def Offset.bits : Offset → BitVec 5
  | .cst c => c
  | .reg r => encodeReg r

/-- A word of format LS (R53), unconditional and alone in its packet. -/
def encodeLS (r : BitVec 1) (op : BitVec 3) (o : LsOp) : Word :=
  0#4 ++ encodeReg o.data.idx ++ encodeReg o.baseR ++ o.offset.bits ++ encodeMode o.update o.sign o.offset
    ++ r ++ o.unit.bit ++ op ++ 0b01#2 ++ o.data.file.bit ++ 0#1

/-- A word of format LS15 (R54). -/
def encodeLS15 (op : BitVec 3) (o : Ls15Op) : Word :=
  0#4 ++ encodeReg o.data.idx ++ o.ucst15 ++ o.base.bit ++ op ++ 0b11#2 ++ o.data.file.bit ++ 0#1

/-- A word of format DA (R55): `off` is `src1` or `ucst5`. -/
def encodeDA (op6 : BitVec 6) (unit : DUnit) (dst src2 : RegIdx) (off : BitVec 5) : Word :=
  0#4 ++ encodeReg dst ++ encodeReg src2 ++ off ++ op6 ++ 0b10000#5 ++ unit.bit ++ 0#1

/-- Format DA, register form. -/
def encodeDaReg (op6 : BitVec 6) (o : DaRegOp) : Word := encodeDA op6 o.unit o.dst o.src2 (encodeReg o.src1)

/-- Format DA, constant form. -/
def encodeDaCst (op6 : BitVec 6) (o : DaCstOp) : Word := encodeDA op6 o.unit o.dst o.src2 o.ucst5

/-- A word of format M (R57). -/
def encodeM (o : MOp) : Word :=
  0#4 ++ encodeReg o.dst ++ encodeReg o.src2 ++ encodeReg o.src1 ++ BitVec.ofBool o.x ++ 0b00001#5 ++ 0b00000#5
    ++ BitVec.ofBool o.s ++ 0#1

/-- The word of an instruction (R53 to R57, R63). -/
def encode : Instr → Word
  | .ldhu o => encodeLS 0#1 0b000#3 o
  | .ldbu o => encodeLS 0#1 0b001#3 o
  | .ldb o => encodeLS 0#1 0b010#3 o
  | .stb o => encodeLS 0#1 0b011#3 o
  | .ldh o => encodeLS 0#1 0b100#3 o
  | .sth o => encodeLS 0#1 0b101#3 o
  | .ldw o => encodeLS 0#1 0b110#3 o
  | .stw o => encodeLS 0#1 0b111#3 o
  | .ldnw o => encodeLS 1#1 0b011#3 o
  | .stdw o => encodeLS 1#1 0b100#3 o
  | .stnw o => encodeLS 1#1 0b101#3 o
  | .lddw o => encodeLS 1#1 0b110#3 o
  | .ldhu15 o => encodeLS15 0b000#3 o
  | .ldbu15 o => encodeLS15 0b001#3 o
  | .ldb15 o => encodeLS15 0b010#3 o
  | .stb15 o => encodeLS15 0b011#3 o
  | .ldh15 o => encodeLS15 0b100#3 o
  | .sth15 o => encodeLS15 0b101#3 o
  | .ldw15 o => encodeLS15 0b110#3 o
  | .stw15 o => encodeLS15 0b111#3 o
  | .addabR o => encodeDaReg 0b110000#6 o
  | .addabC o => encodeDaCst 0b110010#6 o
  | .addahR o => encodeDaReg 0b110100#6 o
  | .addahC o => encodeDaCst 0b110110#6 o
  | .addawR o => encodeDaReg 0b111000#6 o
  | .addawC o => encodeDaCst 0b111010#6 o
  | .addadR o => encodeDaReg 0b111100#6 o
  | .addadC o => encodeDaCst 0b111101#6 o
  | .subabR o => encodeDaReg 0b110001#6 o
  | .subabC o => encodeDaCst 0b110011#6 o
  | .subahR o => encodeDaReg 0b110101#6 o
  | .subahC o => encodeDaCst 0b110111#6 o
  | .subawR o => encodeDaReg 0b111001#6 o
  | .subawC o => encodeDaCst 0b111011#6 o
  | .nop cnt => 0#15 ++ cnt ++ 0#13
  | .mpyh o => encodeM o
  | .ldndw o => encodeLS 1#1 0b010#3 o
  | .stndw o => encodeLS 1#1 0b111#3 o

end Sys2Proof
end

