-- ==== Sys2Proof/Machine/State.lean ====
section
/-! DEFINITION. The state of the machine (10_state.md, the tuple before R10), the reasons a step can stop (60_exceptions.md
R161, R162) and the state after reset (R28). -/

namespace Sys2Proof.Machine

/-- The faults (R161). Each is raised where the sources give the DSP no behaviour; the faulting instruction changes no
register and no memory. All are SAFE: the model stops where the DSP may go on. R161 also lists UnwrittenRegister, which no
state of this model can raise, because every register holds a value (log 1). -/
inductive Fault where
  /-- Raised by a load that reads a byte of `alloc` that holds no value (R33). Safe. -/
  | unwrittenMemory (a : Word)
  /-- Raised by a load or store that reaches a byte outside `alloc` (R42). Safe. -/
  | unallocatedAccess (a : Word)
  /-- Raised by an aligned form whose EA is not a multiple of its length `n` (R35). Safe. -/
  | misaligned (ea : Word) (n : Nat)
  /-- Raised by a load or store through a circular base whose block 2^(N+1) is shorter than the datum (R38). Safe. -/
  | blockSmallerThanDatum (N n : Nat)
  /-- Raised at the start of a cycle in which two writes land in one register (R185). Safe. -/
  | writeConflict (r : Reg)
  deriving DecidableEq, Repr

/-- What R162 refuses as `NotInScope` by the name of an instruction. -/
inductive OutOfScope where
  | ldndw
  | stndw
  deriving DecidableEq, Repr

/-- The refusals (R162): the model has no meaning for the word or for the launch. All are SAFE. -/
inductive Refusal where
  /-- Raised by an arm of `exec` whose instruction has no meaning yet. Safe. -/
  | notModelled (mnemonic : String)
  /-- Raised by the decoder (R74), under the names of R162. Safe. -/
  | word (why : Reject)
  /-- `NotInScope LDNDW`, `NotInScope STNDW`: raised by those instructions (R119). Safe. -/
  | notInScope (what : OutOfScope)
  /-- `NoSemantics MPYH`: raised by that instruction (R151). Safe. -/
  | noSemanticsMpyh
  /-- Raised when AMR has a reserved mode value or a reserved bit set (R19). Safe. -/
  | reservedAMR
  deriving DecidableEq, Repr

/-- A register write in flight (R24): the cycle in which it lands, the register, the value. -/
structure PendingWrite where
  landing : Nat
  reg : Reg
  value : Word
  deriving DecidableEq, Repr

/-- Data memory (R23): the bytes that hold a value, as cells with strictly rising addresses. -/
abbrev Memory := List Host.Cell

/-- The state of the machine: the tuple of 10_state.md, the NOP count of R183, and the parameters of R3. -/
structure State where
  /-- The parameters of R3, chosen at launch. -/
  cfg : Config
  /-- Register file A (R10). -/
  regsA : Vector Word 32
  /-- Register file B (R10). -/
  regsB : Vector Word 32
  /-- The addressing mode register (R18). -/
  amr : Word
  /-- The index of the next word in `prog` (R17). -/
  pc : Nat
  /-- Data memory (R23). -/
  mem : Memory
  /-- Register writes in flight, in the order they were issued (R24). -/
  pending : List PendingWrite
  /-- The issue-cycle counter (R25). -/
  t : Nat
  /-- Cycles a NOP still occupies (R183). -/
  nopLeft : Nat
  /-- The fault mark (R26). -/
  fault : Option Fault
  /-- The refusal mark (R26). -/
  refused : Option Refusal
  deriving DecidableEq, Repr

/-- The state after reset (R28, R180): AMR 0, pc 0, nothing pending, t 0, no marks; no byte of memory holds a value. The
spec gives the registers no value: DESIGN CHOICE 0 (log 1). The parameters are `Config.default` (log 2, 3, 4). -/
def State.reset : State where
  cfg := Config.default
  regsA := Vector.replicate 32 0
  regsB := Vector.replicate 32 0
  amr := 0
  pc := 0
  mem := []
  pending := []
  t := 0
  nopLeft := 0
  fault := none
  refused := none

end Sys2Proof.Machine
end

