-- ==== Sys2Proof/Machine/Memory.lean ====
section
/-! DEFINITION. The store of bytes behind 20_memory.md R33: a list of cells in one canonical form. -/

namespace Sys2Proof.Machine

/-- What an address that is not listed reads as: no value, so reading it faults (R33, log 5). -/
def Memory.unlisted (_a : Nat) : Option Byte := none

/-- The byte at an address, if it holds a value. -/
def Memory.read : Memory → Nat → Option Byte
  | [], a => Memory.unlisted a
  | (k, v) :: m, a => if k = a then some v else Memory.read m a

/-- Write one byte, keeping the addresses strictly rising. -/
def Memory.write : Memory → Nat → Byte → Memory
  | [], a, b => [(a, b)]
  | (k, v) :: m, a, b =>
    if a < k then (a, b) :: (k, v) :: m
    else if a = k then (a, b) :: m
    else (k, v) :: Memory.write m a b

/-- The canonical form: addresses strictly rising. An unlisted address reads as no byte, so no cell can repeat it. -/
abbrev Memory.wf (m : Memory) : Prop := m.Pairwise fun x y => x.1 < y.1

/-- Write bytes at the listed addresses, in order (R34). -/
def Memory.writeAll : Memory → List Word → List Byte → Memory
  | m, a :: as, b :: bs => Memory.writeAll (m.write a.toNat b) as bs
  | m, _, _ => m

end Sys2Proof.Machine
end

