-- ==== Sys2Proof/Machine/Operands.lean ====
section
/-! DEFINITION. Operand forms and address generation: AMR (10_state.md R15, R18 to R20), scaling (40_address_generation.md
R80), linear and circular arithmetic (R81, R82) and the address generator (R87). -/

namespace Sys2Proof.Machine

/-- Read a register at issue (R5 `x[r]`). -/
def State.reg (s : State) (r : Reg) : Word :=
  match r.file with
  | .A => s.regsA[r.idx]
  | .B => s.regsB[r.idx]

/-- Write a register; only a landing write does (R183). -/
def State.setReg (s : State) (r : Reg) (v : Word) : State :=
  match r.file with
  | .A => { s with regsA := s.regsA.set r.idx v }
  | .B => { s with regsB := s.regsB.set r.idx v }

/-! ### AMR -/

/-- The position k of a register's mode field AMR[2k+1:2k], for the registers of `CIRC_REGS` (R15, R18). -/
def circIndex (r : Reg) : Option Nat :=
  match r.file with
  | .A => if 4 ≤ r.idx.val ∧ r.idx.val ≤ 7 then some (r.idx.val - 4) else none
  | .B => if 4 ≤ r.idx.val ∧ r.idx.val ≤ 7 then some r.idx.val else none

/-- The mode field k of AMR (R18). -/
def amrMode (amr : Word) (k : Nat) : BitVec 2 := amr.extractLsb' (2 * k) 2

/-- BK0, AMR[20:16] (R18). -/
def amrBK0 (amr : Word) : Nat := (amr.extractLsb' 16 5).toNat

/-- BK1, AMR[25:21] (R18). -/
def amrBK1 (amr : Word) : Nat := (amr.extractLsb' 21 5).toNat

/-- A legal launch value (R19, R22): bits 31:26 zero and no mode field 11. -/
def amrLegal (amr : Word) : Bool :=
  decide (amr.extractLsb' 26 6 = 0#6) && (List.range 8).all fun k => decide (amrMode amr k ≠ 0b11#2)

/-- The circular selection of a base register (R20): `none` is linear, `some N` is circular in 2^(N+1) bytes. -/
def blk (amr : Word) (r : Reg) : Except Refusal (Option Nat) :=
  match circIndex r with
  | none => .ok none
  | some k =>
    if amrMode amr k = 0b00#2 then .ok none
    else if amrMode amr k = 0b01#2 then .ok (some (amrBK0 amr))
    else if amrMode amr k = 0b10#2 then .ok (some (amrBK1 amr))
    else .error .reservedAMR

/-! ### Address arithmetic -/

/-- The bits N:0 of an address (R82 `mask`). -/
def blockMask (N : Nat) : Word := BitVec.ofNat 32 (2 ^ (N + 1) - 1)

/-- Linear address arithmetic (R81). -/
def lin (b off : Word) : Sign → Word
  | .add => b + off
  | .sub => b - off

/-- Circular address arithmetic (R82): only bits N:0 of the base change. `none` is linear. -/
def circ (b off : Word) (sgn : Sign) : Option Nat → Word
  | none => lin b off sgn
  | some N => (b &&& ~~~(blockMask N)) ||| (lin b off sgn &&& blockMask N)

/-- The shift of the offset for a data length (R80). -/
def shiftOf : DataLen → Nat
  | .byte => 0
  | .half => 1
  | .word => 2
  | .dword => 3

/-- The bytes of a datum (R7, R34). -/
def bytesOf : DataLen → Nat
  | .byte => 1
  | .half => 2
  | .word => 4
  | .dword => 8

/-- The offset operand before scaling, as a 32-bit pattern (R6, R66, R68); a register is read in file `f`. -/
def State.offsetOperand (s : State) (f : RegFile) : Offset → Word
  | .cst c => c.setWidth 32
  | .reg r => s.reg ⟨f, r⟩

/-- The scaled offset (R80). -/
def scale (len : DataLen) (v : Word) : Word := v <<< shiftOf len

/-- The address operand of a load or store after its registers are read: base register, scaled offset, direction, and
whether the base is modified. -/
structure Addressing where
  base : Reg
  off : Word
  sign : Sign
  update : Update
  deriving DecidableEq, Repr

/-- The address operand of format LS (R59, R61, R66, R68). -/
def lsAddressing (len : DataLen) (o : LsOp) (s : State) : Addressing where
  base := o.base
  off := scale len (s.offsetOperand o.unit.file o.offset)
  sign := o.sign
  update := o.update

/-- The address operand of format LS15 (R67, R91, R114): positive offset, base not modified. -/
def ls15Addressing (len : DataLen) (o : Ls15Op) : Addressing where
  base := o.base.reg
  off := scale len (o.ucst15.setWidth 32)
  sign := .add
  update := .keep

/-- AGEN (R87): the effective address, and the new base where the base is modified. -/
def agen (u : Update) (sgn : Sign) (b off : Word) (N : Option Nat) : Word × Option Word :=
  match u with
  | .keep => (circ b off sgn N, none)
  | .pre => (circ b off sgn N, some (circ b off sgn N))
  | .post => (b, some (circ b off sgn N))

/-- The address of byte k of an access at `ea` (R34, R37 `cnext`, R93). -/
def byteAddr (ea : Word) (N : Option Nat) (k : Nat) : Word := circ ea (BitVec.ofNat 32 k) .add N

/-- The byte addresses of an n-byte access, in order (R34, R37). -/
def byteAddrs (ea : Word) (N : Option Nat) (n : Nat) : List Word := (List.range n).map (byteAddr ea N)

/-! ### Data -/

/-- The bits of a datum from its bytes, the first byte lowest. -/
def joinBytes : List Byte → BitVec 64
  | [] => 0
  | b :: bs => (joinBytes bs <<< 8) ||| b.setWidth 64

/-- The bytes of a datum, the lowest first. -/
def splitBytes (n : Nat) (v : BitVec 64) : List Byte := (List.range n).map fun i => v.extractLsb' (8 * i) 8

/-- The datum of an access from its bytes in address order (R34). -/
def datumOf : Endian → List Byte → BitVec 64
  | .little, bs => joinBytes bs
  | .big, bs => joinBytes bs.reverse

/-- The bytes of an n-byte datum in address order (R34). -/
def bytesFor : Endian → Nat → BitVec 64 → List Byte
  | .little, n, v => splitBytes n v
  | .big, n, v => (splitBytes n v).reverse

/-- A byte, sign-extended (R102). -/
def sextByte (v : BitVec 64) : Word := (v.setWidth 8).signExtend 32

/-- A byte, zero-extended (R103). -/
def zextByte (v : BitVec 64) : Word := (v.setWidth 8).setWidth 32

/-- A halfword, sign-extended (R104). -/
def sextHalf (v : BitVec 64) : Word := (v.setWidth 16).signExtend 32

/-- A halfword, zero-extended (R105). -/
def zextHalf (v : BitVec 64) : Word := (v.setWidth 16).setWidth 32

/-- The low word of a datum: the whole of a word (R106), the even register of a pair (R107). -/
def lowWord (v : BitVec 64) : Word := v.setWidth 32

/-- The high word of a datum: the odd register of a pair (R107). -/
def highWord (v : BitVec 64) : Word := v.extractLsb' 32 32

/-- The 64-bit datum of a register pair (R112): the odd register is bits 63:32. -/
def State.pair (s : State) (e : Reg) : BitVec 64 := s.reg e.pairOdd ++ s.reg e

end Sys2Proof.Machine
end

