-- ==== Sys2Proof/Machine/Ops.lean ====
section
/-! DEFINITION. The operations the instructions share: register writes in flight (R5, R183), landing them (R183, R185), the
memory primitives (20_memory.md R33, R34, R37), the LOAD and STORE templates (41_load_store.md R100, R101), ADDRADD
(42_adda_suba.md R130) and the fetch. The spec gives the DSP no exception to take and none to return from (R160, R165, R166). -/

namespace Sys2Proof.Machine

/-- The outcome of a step or of a part of one. -/
abbrev Result (α : Type) := Host.Outcome α Fault Refusal

/-- Go on from a next state; a fault or a refusal stays. -/
def andThen {α β : Type} (x : Result α) (f : α → Result β) : Result β :=
  match x with
  | .next a => f a
  | .fault r => .fault r
  | .refused r => .refused r

/-- A refusal of an operand, as an outcome. -/
def orRefuse {α : Type} : Except Refusal α → Result α
  | .ok a => .next a
  | .error r => .refused r

/-! ### Register writes in flight -/

/-- A write that lands `lat` cycles after the issue cycle (R5: `<-` has 1, `<-5` has 5). -/
def State.writeAfter (s : State) (lat : Nat) (r : Reg) (v : Word) : State :=
  { s with pending := s.pending ++ [⟨s.t + lat, r, v⟩] }

/-- The write of a modified base, where there is one (R100 step 8, R101 step 9). -/
def State.writeBase (s : State) (r : Reg) : Option Word → State
  | none => s
  | some v => s.writeAfter addrLatency r v

/-- The writes of a load's destinations (R100 step 9). -/
def State.writeLoaded (s : State) : List (Reg × Word) → State
  | [] => s
  | (r, v) :: ws => (s.writeAfter loadLatency r v).writeLoaded ws

/-- `pc <- pc + 1` (R17). -/
def State.advance (s : State) : State := { s with pc := s.pc + 1 }

/-- The writes due in this cycle (R183). -/
def State.due (s : State) : List PendingWrite := s.pending.filter fun e => e.landing == s.t

/-- The first register that two of the writes name (R185). -/
def conflict : List PendingWrite → Option Reg
  | [] => none
  | e :: es => if es.any (fun e' => e'.reg == e.reg) then some e.reg else conflict es

/-- Write the values of the writes into their registers. -/
def State.commit (s : State) : List PendingWrite → State
  | [] => s
  | e :: es => (s.setReg e.reg e.value).commit es

/-- The registers as they are after the writes due in this cycle, which leave `pending`. -/
def State.landed (s : State) : State :=
  { s.commit s.due with pending := s.pending.filter fun e => e.landing != s.t }

/-- Step 1 of R183: land the writes due in this cycle; two in one register are a fault (R185). -/
def land (s : State) : Result State :=
  match conflict s.due with
  | some r => .fault (.writeConflict r)
  | none => .next s.landed

/-! ### Memory -/

/-- The byte address is in `alloc` (R41). -/
def inAlloc (c : Config) (a : Nat) : Bool := c.alloc.any fun g => decide (g.base ≤ a ∧ a < g.base + g.size)

/-- Every byte of the access is in `alloc` (R42); the first that is not is reported (R120). -/
def checkAlloc (c : Config) : List Word → Result Unit
  | [] => .next ()
  | a :: as => if inAlloc c a.toNat then checkAlloc c as else .fault (.unallocatedAccess a)

/-- The bytes at the addresses (R33); the first that holds no value is reported (R120). -/
def readAll (m : Memory) : List Word → Result (List Byte)
  | [] => .next []
  | a :: as =>
    match m.read a.toNat with
    | none => .fault (.unwrittenMemory a)
    | some b => andThen (readAll m as) fun bs => .next (b :: bs)

/-- MemReadC (R34, R37). DEDUCED (log 6): `alloc` is checked for every byte before any is read, the order of R120. -/
def memReadC (s : State) (ea : Word) (n : Nat) (N : Option Nat) : Result (BitVec 64) :=
  andThen (checkAlloc s.cfg (byteAddrs ea N n)) fun _ =>
  andThen (readAll s.mem (byteAddrs ea N n)) fun bs =>
  .next (datumOf s.cfg.endian bs)

/-- MemWriteC (R34, R37): every byte address is checked before any byte is written (R101). -/
def memWriteC (s : State) (ea : Word) (n : Nat) (N : Option Nat) (v : BitVec 64) : Result State :=
  andThen (checkAlloc s.cfg (byteAddrs ea N n)) fun _ =>
  .next { s with mem := s.mem.writeAll (byteAddrs ea N n) (bytesFor s.cfg.endian n v) }

/-! ### Templates -/

/-- What the address part of a load or store yields: EA, the new base if any, and the block number. -/
structure Access where
  ea : Word
  newBase : Option Word
  blk : Option Nat
  deriving DecidableEq, Repr

/-- The block of a circular base is shorter than the datum (R38). -/
def blockTooSmall (N : Option Nat) (n : Nat) : Bool :=
  match N with
  | none => false
  | some N => decide (2 ^ (N + 1) < n)

/-- Steps 3 to 6 of R100 and 4 to 7 of R101: the block number, the block-length condition (R38), AGEN (R87), and for an
aligned form the alignment (R35). -/
def access (len : DataLen) (aligned : Bool) (ad : Addressing) (s : State) : Result Access :=
  andThen (orRefuse (blk s.amr ad.base)) fun N =>
  if blockTooSmall N (bytesOf len) then .fault (.blockSmallerThanDatum (N.getD 0) (bytesOf len))
  else
    let a := agen ad.update ad.sign (s.reg ad.base) ad.off N
    if aligned && a.1.toNat % bytesOf len != 0 then .fault (.misaligned a.1 (bytesOf len))
    else .next ⟨a.1, a.2, N⟩

/-- LOAD (R100). `results` gives the registers written five cycles after and their values. -/
def load (len : DataLen) (aligned : Bool) (results : BitVec 64 → List (Reg × Word)) (ad : Addressing) (s : State) :
    Result State :=
  andThen (access len aligned ad s) fun a =>
  andThen (memReadC s a.ea (bytesOf len) a.blk) fun v =>
  .next ((s.writeBase ad.base a.newBase).writeLoaded (results v)).advance

/-- STORE (R101): `d` is the datum, read at issue. -/
def store (len : DataLen) (aligned : Bool) (d : BitVec 64) (ad : Addressing) (s : State) : Result State :=
  andThen (access len aligned ad s) fun a =>
  andThen (memWriteC s a.ea (bytesOf len) a.blk d) fun s' =>
  .next (s'.writeBase ad.base a.newBase).advance

/-- ADDRADD (R130): the base decides the mode, no memory is touched, the result lands one cycle after. -/
def addrAdd (len : DataLen) (sgn : Sign) (unit : DUnit) (src2 : RegIdx) (off : Offset) (dst : RegIdx) (s : State) :
    Result State :=
  andThen (orRefuse (blk s.amr ⟨unit.file, src2⟩)) fun N =>
  .next (s.writeAfter addrLatency ⟨unit.file, dst⟩
    (circ (s.reg ⟨unit.file, src2⟩) (scale len (s.offsetOperand unit.file off)) sgn N)).advance

/-! ### Fetch and time -/

/-- The word at `pc` (R17); none at the end of `prog` (R171). -/
def State.fetch (s : State) : Option Word := s.cfg.prog[s.pc]?

/-- A cycle in which no instruction issues: the run drains (R171), or a NOP occupies the cycle; its count goes down by one
each cycle (R183). -/
def State.idle (s : State) : State := { s with nopLeft := s.nopLeft - 1 }

/-- Step 3 of R183. -/
def State.tick (s : State) : State := { s with t := s.t + 1 }

/-- A state with either mark set has stopped (R26). -/
def State.marked (s : State) : Bool := s.fault.isSome || s.refused.isSome

/-- The run is over and its state is final (R171): `pc` has passed the last word, nothing is pending, no mark is set. -/
def State.final (s : State) : Bool := decide (s.pc = s.cfg.prog.length) && s.pending.isEmpty && !s.marked

/-- The state a part of a step leaves behind in the spec's own tuple: where it stops, `s` with the mark set (R26, R161). -/
def mark (s : State) (f : State → State) : Result State → State
  | .next s' => f s'
  | .fault r => { s with fault := some r }
  | .refused r => { s with refused := some r }

/-- `prog` with the word `w` at index `k`; the gap up to `k`, if any, is filled with NOP words. -/
def putWord : List Word → Nat → Word → List Word
  | [], 0, w => [w]
  | _ :: ws, 0, w => w :: ws
  | [], k + 1, w => 0 :: putWord [] k w
  | v :: ws, k + 1, w => v :: putWord ws k w

end Sys2Proof.Machine
end

