-- ==== Sys2Proof/Machine/AddrArith.lean ====
section
/-! DEFINITION. ADDA and SUBA (42_adda_suba.md R131 to R137), each with a register and a constant offset. -/

namespace Sys2Proof.Machine

/-- ADDAB with a register offset (R131). -/
def execAddabR (o : DaRegOp) (s : State) : Result State :=
  addrAdd .byte .add o.unit o.src2 (.reg o.src1) o.dst s

/-- ADDAB with a constant offset (R131). -/
def execAddabC (o : DaCstOp) (s : State) : Result State :=
  addrAdd .byte .add o.unit o.src2 (.cst o.ucst5) o.dst s

/-- ADDAH with a register offset (R132). -/
def execAddahR (o : DaRegOp) (s : State) : Result State :=
  addrAdd .half .add o.unit o.src2 (.reg o.src1) o.dst s

/-- ADDAH with a constant offset (R132). -/
def execAddahC (o : DaCstOp) (s : State) : Result State :=
  addrAdd .half .add o.unit o.src2 (.cst o.ucst5) o.dst s

/-- ADDAW with a register offset (R133). -/
def execAddawR (o : DaRegOp) (s : State) : Result State :=
  addrAdd .word .add o.unit o.src2 (.reg o.src1) o.dst s

/-- ADDAW with a constant offset (R133). -/
def execAddawC (o : DaCstOp) (s : State) : Result State :=
  addrAdd .word .add o.unit o.src2 (.cst o.ucst5) o.dst s

/-- ADDAD with a register offset (R134). -/
def execAddadR (o : DaRegOp) (s : State) : Result State :=
  addrAdd .dword .add o.unit o.src2 (.reg o.src1) o.dst s

/-- ADDAD with a constant offset (R134). -/
def execAddadC (o : DaCstOp) (s : State) : Result State :=
  addrAdd .dword .add o.unit o.src2 (.cst o.ucst5) o.dst s

/-- SUBAB with a register offset (R135). -/
def execSubabR (o : DaRegOp) (s : State) : Result State :=
  addrAdd .byte .sub o.unit o.src2 (.reg o.src1) o.dst s

/-- SUBAB with a constant offset (R135). -/
def execSubabC (o : DaCstOp) (s : State) : Result State :=
  addrAdd .byte .sub o.unit o.src2 (.cst o.ucst5) o.dst s

/-- SUBAH with a register offset (R136). -/
def execSubahR (o : DaRegOp) (s : State) : Result State :=
  addrAdd .half .sub o.unit o.src2 (.reg o.src1) o.dst s

/-- SUBAH with a constant offset (R136). -/
def execSubahC (o : DaCstOp) (s : State) : Result State :=
  addrAdd .half .sub o.unit o.src2 (.cst o.ucst5) o.dst s

/-- SUBAW with a register offset (R137). -/
def execSubawR (o : DaRegOp) (s : State) : Result State :=
  addrAdd .word .sub o.unit o.src2 (.reg o.src1) o.dst s

/-- SUBAW with a constant offset (R137). -/
def execSubawC (o : DaCstOp) (s : State) : Result State :=
  addrAdd .word .sub o.unit o.src2 (.cst o.ucst5) o.dst s

end Sys2Proof.Machine
end

