-- ==== Sys2Proof/Machine/Loads.lean ====
section
/-! DEFINITION. The loads (41_load_store.md R102 to R108) and their 15-bit-offset forms (R114). -/

namespace Sys2Proof.Machine

/-- LDHU: load halfword, zero-extended (R105). -/
def execLdhu (o : LsOp) (s : State) : Result State :=
  load .half true (fun v => [(o.data, zextHalf v)]) (lsAddressing .half o s) s

/-- LDBU: load byte, zero-extended (R103). -/
def execLdbu (o : LsOp) (s : State) : Result State :=
  load .byte true (fun v => [(o.data, zextByte v)]) (lsAddressing .byte o s) s

/-- LDB: load byte, sign-extended (R102). -/
def execLdb (o : LsOp) (s : State) : Result State :=
  load .byte true (fun v => [(o.data, sextByte v)]) (lsAddressing .byte o s) s

/-- LDH: load halfword, sign-extended (R104). -/
def execLdh (o : LsOp) (s : State) : Result State :=
  load .half true (fun v => [(o.data, sextHalf v)]) (lsAddressing .half o s) s

/-- LDW: load word (R106). -/
def execLdw (o : LsOp) (s : State) : Result State :=
  load .word true (fun v => [(o.data, lowWord v)]) (lsAddressing .word o s) s

/-- LDNW: load non-aligned word (R108): no alignment condition (R36). -/
def execLdnw (o : LsOp) (s : State) : Result State :=
  load .word false (fun v => [(o.data, lowWord v)]) (lsAddressing .word o s) s

/-- LDDW: load doubleword into a register pair (R107). -/
def execLddw (o : LsOp) (s : State) : Result State :=
  load .dword true (fun v => [(o.data, lowWord v), (o.data.pairOdd, highWord v)]) (lsAddressing .dword o s) s

/-- LDHU at `*+B14/B15[ucst15]` (R105, R114). -/
def execLdhu15 (o : Ls15Op) (s : State) : Result State :=
  load .half true (fun v => [(o.data, zextHalf v)]) (ls15Addressing .half o) s

/-- LDBU at `*+B14/B15[ucst15]` (R103, R114). -/
def execLdbu15 (o : Ls15Op) (s : State) : Result State :=
  load .byte true (fun v => [(o.data, zextByte v)]) (ls15Addressing .byte o) s

/-- LDB at `*+B14/B15[ucst15]` (R102, R114). -/
def execLdb15 (o : Ls15Op) (s : State) : Result State :=
  load .byte true (fun v => [(o.data, sextByte v)]) (ls15Addressing .byte o) s

/-- LDH at `*+B14/B15[ucst15]` (R104, R114). -/
def execLdh15 (o : Ls15Op) (s : State) : Result State :=
  load .half true (fun v => [(o.data, sextHalf v)]) (ls15Addressing .half o) s

/-- LDW at `*+B14/B15[ucst15]` (R106, R114). -/
def execLdw15 (o : Ls15Op) (s : State) : Result State :=
  load .word true (fun v => [(o.data, lowWord v)]) (ls15Addressing .word o) s

end Sys2Proof.Machine
end

