-- ==== Sys2Proof/Machine/Misc.lean ====
section
/-! DEFINITION. NOP (43_nop_mpyh.md R150) and the instructions the spec names and refuses (R119, R151). -/

namespace Sys2Proof.Machine

/-- NOP n with n = cnt + 1 (R56, R150): it touches no register and no memory, and occupies n - 1 = cnt further cycles. -/
def execNop (cnt : BitVec 4) (s : State) : Result State :=
  .next { s with nopLeft := cnt.toNat }.advance

/-- MPYH (R151): named, no semantics in any source. -/
def execMpyh (_o : MOp) (_s : State) : Result State := .refused .noSemanticsMpyh

/-- LDNDW (R119): not in scope, refused by name. -/
def execLdndw (_o : LsOp) (_s : State) : Result State := .refused (.notInScope .ldndw)

/-- STNDW (R119): not in scope, refused by name. -/
def execStndw (_o : LsOp) (_s : State) : Result State := .refused (.notInScope .stndw)

end Sys2Proof.Machine
end

