-- ==== Sys2Proof/Machine/Stores.lean ====
section
/-! DEFINITION. The stores (41_load_store.md R109 to R113) and their 15-bit-offset forms (R114). -/

namespace Sys2Proof.Machine

/-- STB: store byte (R109). -/
def execStb (o : LsOp) (s : State) : Result State :=
  store .byte true ((s.reg o.data).setWidth 64) (lsAddressing .byte o s) s

/-- STH: store halfword (R110). -/
def execSth (o : LsOp) (s : State) : Result State :=
  store .half true ((s.reg o.data).setWidth 64) (lsAddressing .half o s) s

/-- STW: store word (R111). -/
def execStw (o : LsOp) (s : State) : Result State :=
  store .word true ((s.reg o.data).setWidth 64) (lsAddressing .word o s) s

/-- STNW: store non-aligned word (R113): no alignment condition (R36). -/
def execStnw (o : LsOp) (s : State) : Result State :=
  store .word false ((s.reg o.data).setWidth 64) (lsAddressing .word o s) s

/-- STDW: store doubleword from a register pair (R112). -/
def execStdw (o : LsOp) (s : State) : Result State :=
  store .dword true (s.pair o.data) (lsAddressing .dword o s) s

/-- STB at `*+B14/B15[ucst15]` (R109, R114). -/
def execStb15 (o : Ls15Op) (s : State) : Result State :=
  store .byte true ((s.reg o.data).setWidth 64) (ls15Addressing .byte o) s

/-- STH at `*+B14/B15[ucst15]` (R110, R114). -/
def execSth15 (o : Ls15Op) (s : State) : Result State :=
  store .half true ((s.reg o.data).setWidth 64) (ls15Addressing .half o) s

/-- STW at `*+B14/B15[ucst15]` (R111, R114). -/
def execStw15 (o : Ls15Op) (s : State) : Result State :=
  store .word true ((s.reg o.data).setWidth 64) (ls15Addressing .word o) s

end Sys2Proof.Machine
end

