-- ==== Sys2Proof/Machine/Dispatch.lean ====
section
/-! DEFINITION. The meaning of each instruction, one arm per constructor. -/

namespace Sys2Proof.Machine

def exec (i : Instr) (s : State) : Host.Outcome State Fault Refusal :=
  match i with
  | .ldhu o => Sys2Proof.Machine.execLdhu o s
  | .ldbu o => Sys2Proof.Machine.execLdbu o s
  | .ldb o => Sys2Proof.Machine.execLdb o s
  | .stb o => Sys2Proof.Machine.execStb o s
  | .ldh o => Sys2Proof.Machine.execLdh o s
  | .sth o => Sys2Proof.Machine.execSth o s
  | .ldw o => Sys2Proof.Machine.execLdw o s
  | .stw o => Sys2Proof.Machine.execStw o s
  | .ldnw o => Sys2Proof.Machine.execLdnw o s
  | .stdw o => Sys2Proof.Machine.execStdw o s
  | .stnw o => Sys2Proof.Machine.execStnw o s
  | .lddw o => Sys2Proof.Machine.execLddw o s
  | .ldhu15 o => Sys2Proof.Machine.execLdhu15 o s
  | .ldbu15 o => Sys2Proof.Machine.execLdbu15 o s
  | .ldb15 o => Sys2Proof.Machine.execLdb15 o s
  | .stb15 o => Sys2Proof.Machine.execStb15 o s
  | .ldh15 o => Sys2Proof.Machine.execLdh15 o s
  | .sth15 o => Sys2Proof.Machine.execSth15 o s
  | .ldw15 o => Sys2Proof.Machine.execLdw15 o s
  | .stw15 o => Sys2Proof.Machine.execStw15 o s
  | .addabR o => Sys2Proof.Machine.execAddabR o s
  | .addabC o => Sys2Proof.Machine.execAddabC o s
  | .addahR o => Sys2Proof.Machine.execAddahR o s
  | .addahC o => Sys2Proof.Machine.execAddahC o s
  | .addawR o => Sys2Proof.Machine.execAddawR o s
  | .addawC o => Sys2Proof.Machine.execAddawC o s
  | .addadR o => Sys2Proof.Machine.execAddadR o s
  | .addadC o => Sys2Proof.Machine.execAddadC o s
  | .subabR o => Sys2Proof.Machine.execSubabR o s
  | .subabC o => Sys2Proof.Machine.execSubabC o s
  | .subahR o => Sys2Proof.Machine.execSubahR o s
  | .subahC o => Sys2Proof.Machine.execSubahC o s
  | .subawR o => Sys2Proof.Machine.execSubawR o s
  | .subawC o => Sys2Proof.Machine.execSubawC o s
  | .nop cnt => Sys2Proof.Machine.execNop cnt s
  | .mpyh o => Sys2Proof.Machine.execMpyh o s
  | .ldndw o => Sys2Proof.Machine.execLdndw o s
  | .stndw o => Sys2Proof.Machine.execStndw o s

end Sys2Proof.Machine
end

