-- ==== Sys2Proof/Machine/Step.lean ====
section
/-! DEFINITION. One step is one issue cycle (70_reset_and_hazards.md R183): land, issue, count. -/

namespace Sys2Proof.Machine

/-- Step 2 of R183: at the end of `prog`, or while a NOP occupies the cycle, nothing issues; else the word at `pc` is decoded
(R74) and performed. -/
def issue (s : State) : Host.Outcome State Fault Refusal :=
  match s.fetch with
  | none => .next s.idle
  | some w =>
    if s.nopLeft ≠ 0 then .next s.idle
    else match decode s.cfg.regsPerFile w with
      | .error r => .refused (.word r)
      | .ok i => exec i s

/-- One cycle of an unmarked machine whose AMR is legal (R183). -/
def runCycle (s : State) : Host.Outcome State Fault Refusal :=
  andThen (land s) fun s1 => andThen (issue s1) fun s2 => .next s2.tick

/-- One step. A marked state answers its mark again (R26, log 12); a reserved AMR is refused before anything runs (R19,
log 11). -/
def step (s : State) : Host.Outcome State Fault Refusal :=
  match s.fault, s.refused with
  | some f, _ => .fault f
  | none, some r => .refused r
  | none, none => if amrLegal s.amr then runCycle s else .refused .reservedAMR

/-- The step on the spec's own state tuple, which holds the marks (R26, R183): where `step` stops, the registers are those
after the landing of this cycle, and nothing else has changed but the mark (R161). -/
def cycle (s : State) : State :=
  if s.marked then s
  else if amrLegal s.amr then mark s (fun s1 => mark s1 State.tick (issue s1)) (land s)
  else { s with refused := some .reservedAMR }

/-- `s` with the word `w` (its bits from `nbits` up zero) placed where the next step fetches: at `prog[pc]`, with no NOP
occupying the cycle and no mark set. `alloc` is left as it is, also where it holds the byte addresses of `prog`, as after
reset: `prog` is apart from `mem` all the same (R47, log 27). -/
def State.withFetchWord (s : State) (nbits w : Nat) : State :=
  { s with
    cfg := { s.cfg with prog := putWord s.cfg.prog s.pc (BitVec.ofNat 32 (w % 2 ^ nbits)) }
    nopLeft := 0
    fault := none
    refused := none }

end Sys2Proof.Machine
end

