-- ==== Sys2Proof/Machine/Assembler.lean ====
section
/-! DEFINITION. The address operands and instructions of the assembler (30_encoding.md R69 to R72) as data, and the instruction
each stands for. No step depends on this file (log 23). -/

namespace Sys2Proof.Machine

/-- The ways of writing the base register (R69). -/
inductive AsmForm where
  /-- `*R` -/
  | plain
  /-- `*+R` -/
  | plus
  /-- `*-R` -/
  | minus
  /-- `*++R` -/
  | preInc
  /-- `*--R` -/
  | preDec
  /-- `*R++` -/
  | postInc
  /-- `*R--` -/
  | postDec
  deriving DecidableEq, Repr

/-- What stands after the base (R69, R71). -/
inductive AsmOffset where
  /-- nothing -/
  | absent
  /-- `[a]`: a units of the data length -/
  | units (a : Nat)
  /-- `(a)`: a bytes -/
  | bytes (a : Nat)
  /-- `[offsetR]` -/
  | reg (r : Reg)
  deriving DecidableEq, Repr

/-- An address operand as written. -/
structure AsmAddr where
  form : AsmForm
  base : Reg
  offset : AsmOffset
  deriving DecidableEq, Repr

/-- The address mode a form stands for (R61, R70). -/
def AsmForm.mode : AsmForm → Update × Sign
  | .plain => (.keep, .add)
  | .plus => (.keep, .add)
  | .minus => (.keep, .sub)
  | .preInc => (.pre, .add)
  | .preDec => (.pre, .sub)
  | .postInc => (.post, .add)
  | .postDec => (.post, .sub)

/-- The constant field of a constant offset, in units of the data length (R70, R71); `none` where the operand is no
constant, is not a whole number of units, or the form needs an offset and has none. -/
def AsmAddr.constant (len : DataLen) (a : AsmAddr) : Option Nat :=
  match a.offset with
  | .units k => some k
  | .bytes k => if k % bytesOf len = 0 then some (k / bytesOf len) else none
  | .reg _ => none
  | .absent =>
    match a.form with
    | .plain => some 0
    | .preInc => some 1
    | .preDec => some 1
    | .postInc => some 1
    | .postDec => some 1
    | .plus => none
    | .minus => none

/-- The offset field of format LS: a register of the unit's file (R115), or a constant that fits five bits. -/
def AsmAddr.lsOffset (len : DataLen) (unit : DUnit) (a : AsmAddr) : Option Offset :=
  match a.offset with
  | .reg r => if r.file = unit.file then some (.reg r.idx) else none
  | _ =>
    match a.constant len with
    | some k => if k < 32 then some (.cst (BitVec.ofNat 5 k)) else none
    | none => none

/-- The operand of format LS that an address operand and a data register assemble to (R72, R115). -/
def AsmAddr.toLs (len : DataLen) (unit : DUnit) (a : AsmAddr) (data : Reg) : Option LsOp :=
  match a.lsOffset len unit with
  | some off =>
    if a.base.file = unit.file then some ⟨unit, a.base.idx, a.form.mode.1, a.form.mode.2, off, data⟩ else none
  | none => none

/-- The operand of format LS15 (R69, R114): `*+B14[ucst15]` or `*+B15[ucst15]`; a negative offset, pre- and
post-modification are not supported. DESIGN CHOICE (log 23): `*B14[a]` and `*B15[a]` are read as `*+B14[a]` and `*+B15[a]`. -/
def AsmAddr.toLs15 (len : DataLen) (a : AsmAddr) (data : Reg) : Option Ls15Op :=
  if a.form.mode = (.keep, .add) ∧ a.offset ≠ .absent then
    match a.constant len with
    | some k =>
      if k < 2 ^ 15 then
        if a.base = ⟨.B, 14⟩ then some ⟨.B14, BitVec.ofNat 15 k, data⟩
        else if a.base = ⟨.B, 15⟩ then some ⟨.B15, BitVec.ofNat 15 k, data⟩
        else none
      else none
    | none => none
  else none

/-! ### Instructions (R72) -/

/-- The mnemonics of the loads. -/
inductive LoadMnemonic where
  | LDB
  | LDBU
  | LDH
  | LDHU
  | LDW
  | LDNW
  | LDDW
  deriving DecidableEq, Repr

/-- The mnemonics of the stores. -/
inductive StoreMnemonic where
  | STB
  | STH
  | STW
  | STNW
  | STDW
  deriving DecidableEq, Repr

/-- The mnemonics of ADDA and SUBA. -/
inductive AddrMnemonic where
  | ADDAB
  | ADDAH
  | ADDAW
  | ADDAD
  | SUBAB
  | SUBAH
  | SUBAW
  deriving DecidableEq, Repr

/-- The second source of ADDA and SUBA: a register or an unsigned constant. -/
inductive AsmSource where
  | reg (r : Reg)
  | cst (k : Nat)
  deriving DecidableEq, Repr

/-- An instruction as written (R72): a load names its address first, a store its data first, ADDA and SUBA the base, the
offset and the destination. The register pair of LDDW and STDW is given by its even register. -/
inductive AsmInstr where
  | load (m : LoadMnemonic) (unit : DUnit) (addr : AsmAddr) (dst : Reg)
  | store (m : StoreMnemonic) (unit : DUnit) (src : Reg) (addr : AsmAddr)
  | addr (m : AddrMnemonic) (unit : DUnit) (src2 : Reg) (src1 : AsmSource) (dst : Reg)
  | nop (n : Option Nat)
  deriving DecidableEq, Repr

/-- The data length of a load (R63). -/
def LoadMnemonic.len : LoadMnemonic → DataLen
  | .LDB => .byte
  | .LDBU => .byte
  | .LDH => .half
  | .LDHU => .half
  | .LDW => .word
  | .LDNW => .word
  | .LDDW => .dword

/-- The data length of a store (R63). -/
def StoreMnemonic.len : StoreMnemonic → DataLen
  | .STB => .byte
  | .STH => .half
  | .STW => .word
  | .STNW => .word
  | .STDW => .dword

/-- A load in format LS (R63). -/
def LoadMnemonic.ls (o : LsOp) : LoadMnemonic → Instr
  | .LDB => .ldb o
  | .LDBU => .ldbu o
  | .LDH => .ldh o
  | .LDHU => .ldhu o
  | .LDW => .ldw o
  | .LDNW => .ldnw o
  | .LDDW => .lddw o

/-- A load in format LS15 (R54, R114): LDNW and LDDW have none. -/
def LoadMnemonic.ls15 (o : Ls15Op) : LoadMnemonic → Option Instr
  | .LDB => some (.ldb15 o)
  | .LDBU => some (.ldbu15 o)
  | .LDH => some (.ldh15 o)
  | .LDHU => some (.ldhu15 o)
  | .LDW => some (.ldw15 o)
  | .LDNW => none
  | .LDDW => none

/-- A store in format LS (R63). -/
def StoreMnemonic.ls (o : LsOp) : StoreMnemonic → Instr
  | .STB => .stb o
  | .STH => .sth o
  | .STW => .stw o
  | .STNW => .stnw o
  | .STDW => .stdw o

/-- A store in format LS15 (R54, R114): STNW and STDW have none. -/
def StoreMnemonic.ls15 (o : Ls15Op) : StoreMnemonic → Option Instr
  | .STB => some (.stb15 o)
  | .STH => some (.sth15 o)
  | .STW => some (.stw15 o)
  | .STNW => none
  | .STDW => none

/-- ADDA and SUBA with a register offset (R55). -/
def AddrMnemonic.reg (o : DaRegOp) : AddrMnemonic → Instr
  | .ADDAB => .addabR o
  | .ADDAH => .addahR o
  | .ADDAW => .addawR o
  | .ADDAD => .addadR o
  | .SUBAB => .subabR o
  | .SUBAH => .subahR o
  | .SUBAW => .subawR o

/-- ADDA and SUBA with a constant offset (R55). -/
def AddrMnemonic.cst (o : DaCstOp) : AddrMnemonic → Instr
  | .ADDAB => .addabC o
  | .ADDAH => .addahC o
  | .ADDAW => .addawC o
  | .ADDAD => .addadC o
  | .SUBAB => .subabC o
  | .SUBAH => .subahC o
  | .SUBAW => .subawC o

/-- The instruction a written line stands for, if it has one (R72, R115). A load or store takes format LS where its operand
has one there and format LS15, which always runs on `.D2` (R54), otherwise; every register of ADDA and SUBA is in the file of
the unit (R14); `NOP` is `NOP 1`, and n is 1 to 9 (R56). Whether the registers make a legal instruction, `WellFormed` says. -/
def AsmInstr.assemble : AsmInstr → Option Instr
  | .load m unit a dst =>
    match a.toLs m.len unit dst with
    | some o => some (m.ls o)
    | none => if unit = .D2 then (a.toLs15 m.len dst).bind m.ls15 else none
  | .store m unit src a =>
    match a.toLs m.len unit src with
    | some o => some (m.ls o)
    | none => if unit = .D2 then (a.toLs15 m.len src).bind m.ls15 else none
  | .addr m unit src2 src1 dst =>
    if src2.file = unit.file ∧ dst.file = unit.file then
      match src1 with
      | .reg r => if r.file = unit.file then some (m.reg ⟨unit, src2.idx, r.idx, dst.idx⟩) else none
      | .cst k => if k < 32 then some (m.cst ⟨unit, src2.idx, BitVec.ofNat 5 k, dst.idx⟩) else none
    else none
  | .nop none => some (.nop 0)
  | .nop (some n) => if 1 ≤ n ∧ n ≤ 9 then some (.nop (BitVec.ofNat 4 (n - 1))) else none

end Sys2Proof.Machine
end

