-- ==== Sys2Proof/Machine/Launch.lean ====
section
/-! DEFINITION. What the host does before a run (10_state.md R22, R28; 60_exceptions.md R174): a launch state is the reset
state in which the launcher has set the parameters, AMR, any registers and any bytes of `mem` on `alloc`. -/

namespace Sys2Proof.Machine

/-- What a launcher chooses (R28). -/
structure Launch where
  cfg : Config
  amr : Word
  regs : List (Reg × Word)
  mem : List (Word × Byte)
  deriving DecidableEq, Repr

/-- Set the registers a launcher gives, in order. DESIGN CHOICE (log 21): of several values for one register the last stands;
and where the machine has 16 registers per file a value given for a register of index 16 or more is stored in its place of
the 32-place file like any other, without a refusal: no admitted word names that register (R64). -/
def State.setRegs (s : State) : List (Reg × Word) → State
  | [] => s
  | (r, v) :: rs => (s.setReg r v).setRegs rs

/-- The launch state (R28), or the refusal of a reserved AMR (R19). DESIGN CHOICE (log 21): a byte given outside `alloc` is
reported as an access outside `alloc`, the last of several values for one register or byte stands, and a register whose index
is not below REGS_PER_FILE is set like the others. DESIGN CHOICE (log 27): a launch whose `alloc` overlaps the byte addresses
of `prog`, a platform R47 puts outside the model, is accepted and runs as if the two were apart. -/
def launch (l : Launch) : Result State :=
  if amrLegal l.amr then
    andThen (checkAlloc l.cfg (l.mem.map Prod.fst)) fun _ =>
    .next ({ State.reset with
      cfg := l.cfg
      amr := l.amr
      mem := Memory.writeAll [] (l.mem.map Prod.fst) (l.mem.map Prod.snd) }.setRegs l.regs)
  else .refused .reservedAMR

end Sys2Proof.Machine
end

