-- ==== Sys2Proof/Machine/Pipeline.lean ====
section
/-! DEFINITION. The pipeline phases (70_reset_and_hazards.md R186 to R191), fetch packets and execute packets (30_encoding.md
R51, R52) and the listing of a program (10_state.md R17, 20_memory.md R31), as data. They are descriptive: no step depends
on this file (log 14). -/

namespace Sys2Proof.Machine

/-- The stages (R186). -/
inductive Stage where
  | fetch
  | decode
  | execute
  deriving DecidableEq, Repr

/-- The phases (R187, R189, R191). -/
inductive Phase where
  | PG
  | PS
  | PW
  | PR
  | DP
  | DC
  | E1
  | E2
  | E3
  | E4
  | E5
  deriving DecidableEq, Repr

/-- The phases in order (R187, R189, R191). -/
def Phase.all : List Phase := [.PG, .PS, .PW, .PR, .DP, .DC, .E1, .E2, .E3, .E4, .E5]

/-- The stage a phase belongs to (R186). -/
def Phase.stage : Phase → Stage
  | .PG => .fetch
  | .PS => .fetch
  | .PW => .fetch
  | .PR => .fetch
  | .DP => .decode
  | .DC => .decode
  | .E1 => .execute
  | .E2 => .execute
  | .E3 => .execute
  | .E4 => .execute
  | .E5 => .execute

/-- The phases of a stage, in order. -/
def Phase.of (g : Stage) : List Phase := Phase.all.filter fun p => decide (p.stage = g)

/-- The fetch packets of a program, eight words each (R51). The first begins at word 0 of `prog`, which is aligned
where `prog_base` is a multiple of 32 (R31). DESIGN CHOICE (log 26): it does so whatever `prog_base` is, and the last holds
fewer than eight words where `prog` ends inside it. -/
def fetchPackets (ws : List Word) : List (List Word) :=
  (List.range ((ws.length + fetchPacketInstrs - 1) / fetchPacketInstrs)).map fun k =>
    (ws.drop (fetchPacketInstrs * k)).take fetchPacketInstrs

/-- The execute packets of a run of words (R52): `p` = 1 joins a word with the next. DESIGN CHOICE (log 26): a last word with
`p` = 1, which has no next word in the run, ends its packet; and the function takes a run of any length, so that a packet of
a run longer than a fetch packet may hold more than eight words. R52 divides fetch packets: see `programPackets`. -/
def executePackets : List Word → List (List Word)
  | [] => []
  | w :: ws =>
    if fld w 0 1 = 1#1 then
      match executePackets ws with
      | [] => [[w]]
      | q :: qs => (w :: q) :: qs
    else [w] :: executePackets ws

/-- The execute packets of a program: each fetch packet is divided by itself (R52). DESIGN CHOICE (log 26): so a last word of
a fetch packet with `p` = 1 is not joined with the first word of the next. -/
def programPackets (ws : List Word) : List (List Word) := (fetchPackets ws).flatMap executePackets

/-- The byte address of word k of `prog` (R17). -/
def wordAddress (c : Config) (k : Nat) : Word := c.progBase + BitVec.ofNat 32 (4 * k)

/-- The listing of a program: byte address and word (R31). -/
def listing (c : Config) : List (Word × Word) := (List.range c.prog.length).map (wordAddress c) |>.zip c.prog

end Sys2Proof.Machine
end

