-- ==== Sys2Proof/Safety.lean ====
section
/-! DEFINITION. What a safe run is, the invariant of the machine, and the terms the statements use. -/

namespace Sys2Proof.Machine

/-- n steps, stopping at the first fault or refusal. -/
def run : Nat → State → Result State
  | 0, s => .next s
  | n + 1, s => andThen (step s) (run n)

/-- The machine can take a step: no mark is set (R26) and AMR is a legal value (R19). -/
structure Running (s : State) : Prop where
  noFault : s.fault = none
  noRefusal : s.refused = none
  legalAmr : amrLegal s.amr = true

/-- The invariant of the machine between steps: memory is canonical and holds bytes of `alloc` only (R33, R42); every
pending write lands within the latencies of R182 and R184 and names a register of the machine (R12); `pc` has not passed
the end of `prog` (R17); a NOP has at most eight cycles left (R56). -/
structure Inv (s : State) : Prop where
  memWf : s.mem.wf
  memAlloc : ∀ c ∈ s.mem, c.1 < 2 ^ 32 ∧ inAlloc s.cfg c.1 = true
  window : ∀ e ∈ s.pending, s.t ≤ e.landing ∧ e.landing ≤ s.t + 4
  regsExist : ∀ e ∈ s.pending, e.reg.idx.val < s.cfg.regsPerFile.count
  pcInProg : s.pc ≤ s.cfg.prog.length
  nopBound : s.nopLeft ≤ 8

/-- A run of n steps is safe when it reaches a state. -/
def SafeFor (n : Nat) (s : State) : Prop := ∃ t, run n s = .next t

/-! ### Terms of the statements -/

/-- The byte at `a` is allocated and holds `b` (R33). -/
def Holds (s : State) (a : Word) (b : Byte) : Prop := inAlloc s.cfg a.toNat = true ∧ s.mem.read a.toNat = some b

/-- The byte at `a` is allocated (R42). -/
def Allocated (s : State) (a : Word) : Prop := inAlloc s.cfg a.toNat = true

/-- The block of a circular base is at least as long as an n-byte datum (R38); a linear base has no such condition. -/
def BlockFits : Option Nat → Nat → Prop
  | none, _ => True
  | some N, n => n ≤ 2 ^ (N + 1)

/-- The effective address of a format LS access through a base with block number `N` (R87). -/
def lsEA (len : DataLen) (o : LsOp) (s : State) (N : Option Nat) : Word :=
  (agen o.update o.sign (s.reg o.base) (scale len (s.offsetOperand o.unit.file o.offset)) N).1

/-- The new base of a format LS access, if the base is modified (R87). -/
def lsNewBase (len : DataLen) (o : LsOp) (s : State) (N : Option Nat) : Option Word :=
  (agen o.update o.sign (s.reg o.base) (scale len (s.offsetOperand o.unit.file o.offset)) N).2

/-- The effective address of a format LS15 access (R91): base plus the scaled constant, linear. -/
def ls15EA (len : DataLen) (o : Ls15Op) (s : State) : Word := s.reg o.base.reg + (o.ucst15.setWidth 32 <<< shiftOf len)

/-- The write of a modified base, due one cycle after issue (R90). -/
def baseWrites (s : State) (r : Reg) : Option Word → List PendingWrite
  | none => []
  | some v => [⟨s.t + 1, r, v⟩]

/-- The state after an instruction that only issues register writes (R17, R183). -/
def issued (s : State) (ws : List PendingWrite) : State := { s with pc := s.pc + 1, pending := s.pending ++ ws }

/-- The halfword of two bytes (R34). -/
def halfOf (e : Endian) (b : Nat → Byte) : BitVec 16 :=
  match e with
  | .little => b 1 ++ b 0
  | .big => b 0 ++ b 1

/-- The word of four bytes (R34). -/
def wordOf (e : Endian) (b : Nat → Byte) : Word :=
  match e with
  | .little => b 3 ++ b 2 ++ b 1 ++ b 0
  | .big => b 0 ++ b 1 ++ b 2 ++ b 3

/-- The doubleword of eight bytes (R34). -/
def dwordOf (e : Endian) (b : Nat → Byte) : BitVec 64 :=
  match e with
  | .little => b 7 ++ b 6 ++ b 5 ++ b 4 ++ b 3 ++ b 2 ++ b 1 ++ b 0
  | .big => b 0 ++ b 1 ++ b 2 ++ b 3 ++ b 4 ++ b 5 ++ b 6 ++ b 7

/-- Byte k, in address order, of the n-byte datum in the low bits of `v` (R34). -/
def byteOf {w : Nat} (e : Endian) (n : Nat) (v : BitVec w) (k : Nat) : Byte :=
  match e with
  | .little => v.extractLsb' (8 * k) 8
  | .big => v.extractLsb' (8 * (n - 1 - k)) 8

/-- From `s` to `t` the bytes at `addr 0`, …, `addr (n-1)` become `d 0`, …, `d (n-1)` and every other address reads as
before. -/
def StoresBytes (s t : State) (addr : Nat → Word) (n : Nat) (d : Nat → Byte) : Prop :=
  (∀ k < n, t.mem.read (addr k).toNat = some (d k)) ∧
  ∀ a, (∀ k < n, a ≠ (addr k).toNat) → t.mem.read a = s.mem.read a

/-- `t` is `s` after a store: the writes `ws` issued, pc advanced, memory changed and nothing else. -/
def issuedWithMem (s t : State) (ws : List PendingWrite) : Prop := t = { issued s ws with mem := t.mem }

end Sys2Proof.Machine
end

