-- ==== Sys2Proof/Certificates/Slice0/Obligations.lean ====
section
/-! DEFINITION. The statements for the provers. Each says which rule of spec/ it formalises. -/

open Sys2Proof Sys2Proof.Machine

/-! ### Encoding -/

/-- Every field of a well-formed instruction survives encoding and decoding (R53 to R57, R61, R63). -/
def Obligations.DecodeOfEncode : Prop :=
  ∀ (n : RegsPerFile) (i : Instr), WellFormed n i → decode n (encode i) = .ok i

/-- No bit of an admitted word is dropped, and only well-formed instructions are admitted (R74). -/
def Obligations.EncodeOfDecode : Prop :=
  ∀ (n : RegsPerFile) (w : Word) (i : Instr), decode n w = .ok i → encode i = w ∧ WellFormed n i

/-- Words of each format read from the spec's own tables and examples (95_test_vectors.md S1, S2, S3, S5, V4, V5, V7, V10). -/
def Obligations.SampleWordsDecode : Prop :=
  decode .r32 0x00913264 = .ok (.ldw ⟨.D1, 4, .pre, .add, .cst 9, ⟨.A, 1⟩⟩) ∧
  decode .r32 0x00905334 = .ok (.ldnw ⟨.D1, 4, .pre, .add, .cst 2, ⟨.A, 1⟩⟩) ∧
  decode .r32 0x00A80266 = .ok (.ldw ⟨.D1, 10, .keep, .add, .cst 0, ⟨.B, 1⟩⟩) ∧
  decode .r32 0x04119A64 = .ok (.ldw ⟨.D1, 4, .pre, .add, .reg 12, ⟨.A, 8⟩⟩) ∧
  decode .r32 0x01BC54F6 = .ok (.stw ⟨.D2, 15, .post, .sub, .cst 2, ⟨.B, 3⟩⟩) ∧
  decode .r32 0x01FFFFEE = .ok (.ldw15 ⟨.B15, 0x7FFF, ⟨.B, 3⟩⟩) ∧
  decode .r32 0x00903A40 = .ok (.addahR ⟨.D1, 4, 1, 1⟩) ∧
  decode .r32 0x02105EC0 = .ok (.addadC ⟨.D1, 4, 2, 4⟩) ∧
  decode .r32 0x00006000 = .ok (.nop 3) ∧
  decode .r32 0x01882080 = .ok (.mpyh ⟨3, 2, 1, false, false⟩)

/-- R52: a word with `p` = 1 is refused. -/
def Obligations.ParallelWordsRefused : Prop :=
  ∀ (n : RegsPerFile) (w : Word), w.getLsbD 0 = true → decode n w = .error .parallelPacket

/-- R58: in formats LS, LS15, DA and M any `creg` or `z` other than zero is refused (format M: log 9). -/
def Obligations.ConditionalWordsRefused : Prop :=
  ∀ (n : RegsPerFile) (w : Word), w.getLsbD 0 = false →
    (fld w 2 2 = 0b01#2 ∨ fld w 2 2 = 0b11#2 ∨ fld w 2 5 = 0b10000#5 ∨ (fld w 2 5 = 0b00000#5 ∧ fld w 7 5 = 0b00001#5)) →
    (fld w 29 3 ≠ 0#3 ∨ fld w 28 1 ≠ 0#1) → decode n w = .error .conditional

/-- R61: the twelve rows of the `mode` table, read as (base written and which value is used, direction, register offset).
These columns of the table R61 calls the reading its rules use of the document's columns, and it derives their bitwise
pattern from the rows. -/
def Obligations.ModeTable : Prop :=
  decodeMode 0b0000 = some (.keep, .sub, false) ∧ decodeMode 0b0001 = some (.keep, .add, false) ∧
  decodeMode 0b0100 = some (.keep, .sub, true) ∧ decodeMode 0b0101 = some (.keep, .add, true) ∧
  decodeMode 0b1000 = some (.pre, .sub, false) ∧ decodeMode 0b1001 = some (.pre, .add, false) ∧
  decodeMode 0b1010 = some (.post, .sub, false) ∧ decodeMode 0b1011 = some (.post, .add, false) ∧
  decodeMode 0b1100 = some (.pre, .sub, true) ∧ decodeMode 0b1101 = some (.pre, .add, true) ∧
  decodeMode 0b1110 = some (.post, .sub, true) ∧ decodeMode 0b1111 = some (.post, .add, true)

/-- R62: a word in format LS with `mode` 0010, 0011, 0110 or 0111 is refused. -/
def Obligations.ReservedModesRefused : Prop :=
  ∀ (n : RegsPerFile) (w : Word), w.getLsbD 0 = false → fld w 2 2 = 0b01#2 → fld w 28 4 = 0#4 →
    fld w 9 4 ∈ [0b0010#4, 0b0011#4, 0b0110#4, 0b0111#4] → decode n w = .error .reservedMode

/-- R12, R64: on a machine with 16 registers per file, a word that is an instruction of the machine with 32 stays that
instruction when it is well formed for 16 and is refused as naming no register otherwise; an LDW naming an index of 16 or
more is of the second kind. That LDNDW, STNDW and MPYH have no such check is log 10. -/
def Obligations.RegistersBeyondFileRefused : Prop :=
  (∀ (w : Word) (i : Instr), decode .r32 w = .ok i →
    (WellFormed .r16 i → decode .r16 w = .ok i) ∧ (¬ WellFormed .r16 i → decode .r16 w = .error .noSuchRegister)) ∧
  (∀ (w : Word) (o : LsOp), decode .r32 w = .ok (.ldw o) →
    (16 ≤ o.baseR.val ∨ 16 ≤ o.data.idx.val ∨ ∃ r, o.offset = .reg r ∧ 16 ≤ r.val) →
    decode .r16 w = .error .noSuchRegister)

/-- R65, R74: a word of LDDW or STDW whose `dst`/`src` field names an odd register (bit 23 = 1) is refused, on a machine of
either size whose registers it names. That the answer is OddPairRegister also where the word is a load into the base it
modifies, which R116 refuses with DstIsModifiedBase, is the model's reading, log 10. -/
def Obligations.OddPairRefused : Prop :=
  ∀ (n : RegsPerFile) (w : Word), w.getLsbD 0 = false → fld w 28 4 = 0#4 → fld w 2 2 = 0b01#2 →
    (decodeMode (fld w 9 4)).isSome = true → fld w 8 1 = 1#1 → (fld w 4 3 = 0b110#3 ∨ fld w 4 3 = 0b100#3) →
    (regFld w 23).val < n.count → (regFld w 18).val < n.count →
    ((fld w 9 4).getLsbD 2 = true → (regFld w 13).val < n.count) → w.getLsbD 23 = true →
    decode n w = .error .oddPairRegister

/-- R116: a load into the base it modifies is refused; a load into an unmodified base is admitted. -/
def Obligations.LoadIntoModifiedBaseRefused : Prop :=
  ∀ (n : RegsPerFile) (o : LsOp), regsExist n o.regIdx = true →
    (o.data = o.base →
      (o.update ≠ .keep → ∀ i ∈ [Instr.ldb o, .ldbu o, .ldh o, .ldhu o, .ldw o, .ldnw o],
        decode n (encode i) = .error .dstIsModifiedBase) ∧
      (o.update = .keep → ∀ i ∈ [Instr.ldb o, .ldbu o, .ldh o, .ldhu o, .ldw o, .ldnw o],
        decode n (encode i) = .ok i)) ∧
    (o.data.idx.val % 2 = 0 → (o.data = o.base ∨ o.data.pairOdd = o.base) →
      (o.update ≠ .keep → decode n (encode (.lddw o)) = .error .dstIsModifiedBase) ∧
      (o.update = .keep → decode n (encode (.lddw o)) = .ok (.lddw o)))

/-- R63, R56, R55: `r` = 1 with `op` 000 or 001, a NOP count above 8, and an unlisted `op6` are refused as reserved. -/
def Obligations.ReservedEncodingsRefused : Prop :=
  (∀ (n : RegsPerFile) (w : Word), w.getLsbD 0 = false → fld w 28 4 = 0#4 → fld w 2 2 = 0b01#2 →
    (decodeMode (fld w 9 4)).isSome = true → fld w 8 1 = 1#1 → (fld w 4 3 = 0b000#3 ∨ fld w 4 3 = 0b001#3) →
    decode n w = .error .reservedEncoding) ∧
  (∀ (n : RegsPerFile) (cnt : BitVec 4), 8 < cnt.toNat → decode n (0#15 ++ cnt ++ 0#13) = .error .reservedEncoding) ∧
  (∀ (n : RegsPerFile) (w : Word), w.getLsbD 0 = false → fld w 28 4 = 0#4 → fld w 2 5 = 0b10000#5 →
    ((fld w 7 6).toNat < 48 ∨ fld w 7 6 = 62#6 ∨ fld w 7 6 = 63#6) →
    decode n w = .error .reservedEncoding)

/-- R152: a word that matches no format is refused as not in scope, with the word. -/
def Obligations.UnrecognisedWordsRefused : Prop :=
  ∀ (n : RegsPerFile) (w : Word), w.getLsbD 0 = false → ¬ (fld w 17 15 = 0#15 ∧ fld w 1 12 = 0#12) →
    fld w 2 2 ≠ 0b01#2 → fld w 2 2 ≠ 0b11#2 → fld w 2 5 ≠ 0b10000#5 →
    ¬ (fld w 2 5 = 0b00000#5 ∧ fld w 7 5 = 0b00001#5) → decode n w = .error (.notInScope w)

/-! ### Reset, launch, AMR -/

/-- R28: what reset leaves, as far as the spec gives a value: AMR 0 (every register linear), pc 0, nothing pending, t 0, no
mark, no byte of memory with a value. -/
def Obligations.ResetLeaves : Prop :=
  State.reset.amr = 0 ∧ (∀ r, blk State.reset.amr r = .ok none) ∧ State.reset.pc = 0 ∧ State.reset.pending = [] ∧
  State.reset.t = 0 ∧ State.reset.fault = none ∧ State.reset.refused = none ∧ (∀ a, State.reset.mem.read a = none)

/-- R28, R19: a launch with a legal AMR and bytes of `alloc` gives the state in which the last value given for each register
and each byte stands, every other register and every component not set is as after reset, and AMR and the parameters are the launch's; a
launch with a reserved AMR is refused. That the last of several values stands, and that a register of any index may be
given one, is the model's choice, log 21. -/
def Obligations.LaunchSetsState : Prop :=
  ∀ l : Launch,
    (amrLegal l.amr = false → launch l = .refused .reservedAMR) ∧
    (amrLegal l.amr = true → (∀ c ∈ l.mem, inAlloc l.cfg c.1.toNat = true) →
      ∃ s, launch l = .next s ∧ s.cfg = l.cfg ∧ s.amr = l.amr ∧ s.pc = 0 ∧ s.pending = [] ∧ s.t = 0 ∧ s.nopLeft = 0 ∧
        s.fault = none ∧ s.refused = none ∧
        (∀ r, (∀ p ∈ l.regs, p.1 ≠ r) → s.reg r = State.reset.reg r) ∧
        (∀ rs r v rs', l.regs = rs ++ (r, v) :: rs' → (∀ p ∈ rs', p.1 ≠ r) → s.reg r = v) ∧
        (∀ a, (∀ c ∈ l.mem, c.1.toNat ≠ a) → s.mem.read a = none) ∧
        (∀ cs a b cs', l.mem = cs ++ (a, b) :: cs' → (∀ c ∈ cs', c.1 ≠ a) → s.mem.read a.toNat = some b))

/-- R20: the circular selection of every register from AMR: A4 to A7 take mode fields 0 to 3, B4 to B7 fields 4 to 7; 00 is
linear, 01 takes BK0, 10 takes BK1, 11 is refused; every other register is linear. -/
def Obligations.CircularSelection : Prop :=
  ∀ (amr : Word) (f : RegFile) (i : RegIdx),
    ((i.val < 4 ∨ 7 < i.val) → blk amr ⟨f, i⟩ = .ok none) ∧
    (4 ≤ i.val → i.val ≤ 7 →
      let k := match f with | .A => i.val - 4 | .B => i.val
      let m := amr.extractLsb' (2 * k) 2
      (m = 0b00#2 → blk amr ⟨f, i⟩ = .ok none) ∧
      (m = 0b01#2 → blk amr ⟨f, i⟩ = .ok (some (amr.extractLsb' 16 5).toNat)) ∧
      (m = 0b10#2 → blk amr ⟨f, i⟩ = .ok (some (amr.extractLsb' 21 5).toNat)) ∧
      (m = 0b11#2 → blk amr ⟨f, i⟩ = .error .reservedAMR))

/-- R21: the worked value AMR = 0004 0001h: BK0 = 4, BK1 = 0, A4 circular with N = 4, every other register linear. -/
def Obligations.WorkedAmrValue : Prop :=
  amrBK0 0x00040001 = 4 ∧ amrBK1 0x00040001 = 0 ∧
  ∀ r : Reg, blk 0x00040001 r = .ok (if r = ⟨.A, 4⟩ then some 4 else none)

/-- R19: an AMR with a mode field 11 or a 1 in bits 31:26 is refused, whatever the program: the launch's refusal, asked again
at every step (log 11). -/
def Obligations.ReservedAmrRefused : Prop :=
  ∀ s : State, s.fault = none → s.refused = none →
    ((s.amr.extractLsb' 26 6 ≠ 0#6) ∨ ∃ k < 8, s.amr.extractLsb' (2 * k) 2 = 0b11#2) → step s = .refused .reservedAMR

/-! ### Address arithmetic -/

/-- R81: linear address arithmetic is addition and subtraction modulo 2^32. That it wraps at 32 bits R81 marks as its own
derivation from R11. -/
def Obligations.LinearArithmetic : Prop :=
  ∀ b off : Word,
    (lin b off .add).toNat = (b.toNat + off.toNat) % 2 ^ 32 ∧
    (lin b off .sub).toNat = (b.toNat + 2 ^ 32 - off.toNat) % 2 ^ 32

/-- R82: in circular mode bits N:0 are those of the linear result and bits 31:N+1 those of the base; in linear mode the
result is the linear one. -/
def Obligations.CircularArithmetic : Prop :=
  ∀ (b off : Word) (sgn : Sign),
    circ b off sgn none = lin b off sgn ∧
    ∀ N ≤ 31, ∀ j < 32, (circ b off sgn (some N)).getLsbD j = if j ≤ N then (lin b off sgn).getLsbD j else b.getLsbD j

/-- R94: (a) the result is in the block of the base; (b) whole blocks in the offset do not matter; (c) subtracting what was
added returns to the start; (d) N = 31 is linear; (e) with N = 0 an even offset leaves the address unchanged. R94 marks
all five as its own derivation from R82. -/
def Obligations.CircularLaws : Prop :=
  ∀ (b off : Word) (N : Nat), N ≤ 31 →
    (∀ sgn, b.toNat / 2 ^ (N + 1) * 2 ^ (N + 1) ≤ (circ b off sgn (some N)).toNat ∧
      (circ b off sgn (some N)).toNat < b.toNat / 2 ^ (N + 1) * 2 ^ (N + 1) + 2 ^ (N + 1)) ∧
    (∀ sgn (k : Nat), circ b (off + BitVec.ofNat 32 (k * 2 ^ (N + 1))) sgn (some N) = circ b off sgn (some N)) ∧
    circ (circ b off .add (some N)) off .sub (some N) = b ∧
    (∀ sgn, circ b off sgn (some 31) = lin b off sgn) ∧
    (∀ sgn, off.toNat % 2 = 0 → circ b off sgn (some 0) = b)

/-- R87: the address generator. With b the base, N its block number, off the operand scaled by the data length, and r the
linear or circular sum or difference: EA is r in the offset and pre modes and b in the post modes; the new base is r in the
pre and post modes, and there is none in the offset modes. -/
def Obligations.AddressGenerator : Prop :=
  ∀ (len : DataLen) (o : LsOp) (s : State) (N : Option Nat), blk s.amr o.base = .ok N →
    let off : Word := match o.offset with
      | .cst c => BitVec.ofNat 32 (c.toNat * bytesOf len)
      | .reg q => s.reg ⟨o.unit.file, q⟩ * BitVec.ofNat 32 (bytesOf len)
    let r := circ (s.reg o.base) off o.sign N
    (o.update = .keep → lsEA len o s N = r ∧ lsNewBase len o s N = none) ∧
    (o.update = .pre → lsEA len o s N = r ∧ lsNewBase len o s N = some r) ∧
    (o.update = .post → lsEA len o s N = s.reg o.base ∧ lsNewBase len o s N = some r)

/-- R37, last sentence: an aligned access whose length does not exceed the block touches the bytes of the linear access,
which R37 marks as its own derivation. -/
def Obligations.AlignedAccessDoesNotWrap : Prop :=
  ∀ (ea : Word) (N : Nat) (len : DataLen) (k : Nat), N ≤ 31 → ea.toNat % bytesOf len = 0 → bytesOf len ≤ 2 ^ (N + 1) →
    k < bytesOf len → byteAddr ea (some N) k = byteAddr ea none k ∧ (byteAddr ea none k).toNat = ea.toNat + k

/-- R93: byte k of a circular access is k places on inside the block, and of a linear access at EA + k modulo 2^32. -/
def Obligations.NonAlignedByteSequence : Prop :=
  ∀ (ea : Word) (k : Nat),
    (byteAddr ea none k).toNat = (ea.toNat + k) % 2 ^ 32 ∧
    ∀ N ≤ 31, (byteAddr ea (some N) k).toNat =
      ea.toNat / 2 ^ (N + 1) * 2 ^ (N + 1) + (ea.toNat + k) % 2 ^ (N + 1)

/-! ### Loads -/

/-- R102, R103: LDB and LDBU deliver the byte at EA, sign- and zero-extended, five cycles after; a modified base one cycle
after; nothing else changes. -/
def Obligations.ByteLoadsComplete : Prop :=
  ∀ (o : LsOp) (s : State) (N : Option Nat) (b : Byte),
    blk s.amr o.base = .ok N → Holds s (lsEA .byte o s N) b →
    exec (.ldb o) s = .next (issued s (baseWrites s o.base (lsNewBase .byte o s N) ++
      [⟨s.t + 5, o.data, b.signExtend 32⟩])) ∧
    exec (.ldbu o) s = .next (issued s (baseWrites s o.base (lsNewBase .byte o s N) ++
      [⟨s.t + 5, o.data, b.setWidth 32⟩]))

/-- R104, R105: LDH and LDHU deliver the halfword at EA, sign- and zero-extended. -/
def Obligations.HalfwordLoadsComplete : Prop :=
  ∀ (o : LsOp) (s : State) (N : Option Nat) (b : Nat → Byte),
    blk s.amr o.base = .ok N → (lsEA .half o s N).toNat % 2 = 0 →
    (∀ k < 2, Holds s (byteAddr (lsEA .half o s N) N k) (b k)) →
    exec (.ldh o) s = .next (issued s (baseWrites s o.base (lsNewBase .half o s N) ++
      [⟨s.t + 5, o.data, (halfOf s.cfg.endian b).signExtend 32⟩])) ∧
    exec (.ldhu o) s = .next (issued s (baseWrites s o.base (lsNewBase .half o s N) ++
      [⟨s.t + 5, o.data, (halfOf s.cfg.endian b).setWidth 32⟩]))

/-- R106, R108: LDW at an aligned EA, and LDNW at any EA, deliver the four bytes of the access as a word. -/
def Obligations.WordLoadsComplete : Prop :=
  ∀ (o : LsOp) (s : State) (N : Option Nat) (b : Nat → Byte),
    blk s.amr o.base = .ok N → BlockFits N 4 →
    (∀ k < 4, Holds s (byteAddr (lsEA .word o s N) N k) (b k)) →
    ((lsEA .word o s N).toNat % 4 = 0 →
      exec (.ldw o) s = .next (issued s (baseWrites s o.base (lsNewBase .word o s N) ++
        [⟨s.t + 5, o.data, wordOf s.cfg.endian b⟩]))) ∧
    exec (.ldnw o) s = .next (issued s (baseWrites s o.base (lsNewBase .word o s N) ++
      [⟨s.t + 5, o.data, wordOf s.cfg.endian b⟩]))

/-- R107: LDDW delivers bits 31:0 of the doubleword to the even register and bits 63:32 to the odd one. -/
def Obligations.DoublewordLoadCompletes : Prop :=
  ∀ (o : LsOp) (s : State) (N : Option Nat) (b : Nat → Byte),
    blk s.amr o.base = .ok N → BlockFits N 8 → (lsEA .dword o s N).toNat % 8 = 0 →
    (∀ k < 8, Holds s (byteAddr (lsEA .dword o s N) N k) (b k)) →
    exec (.lddw o) s = .next (issued s (baseWrites s o.base (lsNewBase .dword o s N) ++
      [⟨s.t + 5, o.data, (dwordOf s.cfg.endian b).extractLsb' 0 32⟩,
       ⟨s.t + 5, o.data.pairOdd, (dwordOf s.cfg.endian b).extractLsb' 32 32⟩]))

/-- R114: the 15-bit-offset loads read at base plus scaled constant, always linear, and leave the base. -/
def Obligations.FifteenBitLoadsComplete : Prop :=
  ∀ (o : Ls15Op) (s : State) (b : Nat → Byte),
    (Holds s (ls15EA .byte o s) (b 0) →
      exec (.ldb15 o) s = .next (issued s [⟨s.t + 5, o.data, (b 0).signExtend 32⟩]) ∧
      exec (.ldbu15 o) s = .next (issued s [⟨s.t + 5, o.data, (b 0).setWidth 32⟩])) ∧
    ((ls15EA .half o s).toNat % 2 = 0 → (∀ k < 2, Holds s (ls15EA .half o s + BitVec.ofNat 32 k) (b k)) →
      exec (.ldh15 o) s = .next (issued s [⟨s.t + 5, o.data, (halfOf s.cfg.endian b).signExtend 32⟩]) ∧
      exec (.ldhu15 o) s = .next (issued s [⟨s.t + 5, o.data, (halfOf s.cfg.endian b).setWidth 32⟩])) ∧
    ((ls15EA .word o s).toNat % 4 = 0 → (∀ k < 4, Holds s (ls15EA .word o s + BitVec.ofNat 32 k) (b k)) →
      exec (.ldw15 o) s = .next (issued s [⟨s.t + 5, o.data, wordOf s.cfg.endian b⟩]))

/-! ### Stores -/

/-- R109, R110, R111, R113: STB, STH, STW and STNW write the low 1, 2, 4 and 4 bytes of `src`, as read at issue, at the
bytes of the access (STNW at any EA); a modified base follows one cycle after; every other byte of memory and everything
else is unchanged. -/
def Obligations.SingleRegisterStoresComplete : Prop :=
  ∀ (o : LsOp) (s : State) (N : Option Nat), blk s.amr o.base = .ok N →
    (Allocated s (lsEA .byte o s N) →
      ∃ t, exec (.stb o) s = .next t ∧ issuedWithMem s t (baseWrites s o.base (lsNewBase .byte o s N)) ∧
        StoresBytes s t (fun _ => lsEA .byte o s N) 1 (fun _ => (s.reg o.data).extractLsb' 0 8)) ∧
    ((lsEA .half o s N).toNat % 2 = 0 → (∀ k < 2, Allocated s (byteAddr (lsEA .half o s N) N k)) →
      ∃ t, exec (.sth o) s = .next t ∧ issuedWithMem s t (baseWrites s o.base (lsNewBase .half o s N)) ∧
        StoresBytes s t (byteAddr (lsEA .half o s N) N) 2 (byteOf s.cfg.endian 2 (s.reg o.data))) ∧
    (BlockFits N 4 → (∀ k < 4, Allocated s (byteAddr (lsEA .word o s N) N k)) →
      ((lsEA .word o s N).toNat % 4 = 0 →
        ∃ t, exec (.stw o) s = .next t ∧ issuedWithMem s t (baseWrites s o.base (lsNewBase .word o s N)) ∧
          StoresBytes s t (byteAddr (lsEA .word o s N) N) 4 (byteOf s.cfg.endian 4 (s.reg o.data))) ∧
      ∃ t, exec (.stnw o) s = .next t ∧ issuedWithMem s t (baseWrites s o.base (lsNewBase .word o s N)) ∧
        StoresBytes s t (byteAddr (lsEA .word o s N) N) 4 (byteOf s.cfg.endian 4 (s.reg o.data)))

/-- R112: STDW writes the eight bytes of the pair, the odd register being bits 63:32. -/
def Obligations.DoublewordStoreCompletes : Prop :=
  ∀ (o : LsOp) (s : State) (N : Option Nat), blk s.amr o.base = .ok N → BlockFits N 8 →
    (lsEA .dword o s N).toNat % 8 = 0 → (∀ k < 8, Allocated s (byteAddr (lsEA .dword o s N) N k)) →
    ∃ t, exec (.stdw o) s = .next t ∧ issuedWithMem s t (baseWrites s o.base (lsNewBase .dword o s N)) ∧
      StoresBytes s t (byteAddr (lsEA .dword o s N) N) 8
        (byteOf s.cfg.endian 8 ((s.reg o.data.pairOdd ++ s.reg o.data : BitVec 64)))

/-- R114: the 15-bit-offset stores. -/
def Obligations.FifteenBitStoresComplete : Prop :=
  ∀ (o : Ls15Op) (s : State),
    (Allocated s (ls15EA .byte o s) →
      ∃ t, exec (.stb15 o) s = .next t ∧ issuedWithMem s t [] ∧
        StoresBytes s t (fun _ => ls15EA .byte o s) 1 (fun _ => (s.reg o.data).extractLsb' 0 8)) ∧
    ((ls15EA .half o s).toNat % 2 = 0 → (∀ k < 2, Allocated s (ls15EA .half o s + BitVec.ofNat 32 k)) →
      ∃ t, exec (.sth15 o) s = .next t ∧ issuedWithMem s t [] ∧
        StoresBytes s t (fun k => ls15EA .half o s + BitVec.ofNat 32 k) 2 (byteOf s.cfg.endian 2 (s.reg o.data))) ∧
    ((ls15EA .word o s).toNat % 4 = 0 → (∀ k < 4, Allocated s (ls15EA .word o s + BitVec.ofNat 32 k)) →
      ∃ t, exec (.stw15 o) s = .next t ∧ issuedWithMem s t [] ∧
        StoresBytes s t (fun k => ls15EA .word o s + BitVec.ofNat 32 k) 4 (byteOf s.cfg.endian 4 (s.reg o.data)))

/-- R44, R32: a byte load in the state a word store leaves sees the stored byte, at whichever of the four bytes it looks. -/
def Obligations.LoadSeesEarlierStore : Prop :=
  ∀ (o o' : LsOp) (s t : State) (N N' : Option Nat) (k : Nat), k < 4 →
    blk s.amr o.base = .ok N → exec (.stw o) s = .next t → blk t.amr o'.base = .ok N' →
    lsEA .byte o' t N' = byteAddr (lsEA .word o s N) N k →
    exec (.ldbu o') t = .next (issued t (baseWrites t o'.base (lsNewBase .byte o' t N') ++
      [⟨t.t + 5, o'.data, (byteOf s.cfg.endian 4 (s.reg o.data) k).setWidth 32⟩]))

/-! ### ADDA, SUBA, NOP, and the refused instructions -/

/-- R131 to R137, register forms: the result is the base plus or minus the register shifted by the data length, in the mode
of `src2`; it lands one cycle after; no memory is accessed and nothing else changes. -/
def Obligations.AddressArithmeticRegisterForms : Prop :=
  ∀ (o : DaRegOp) (s : State) (N : Option Nat), blk s.amr ⟨o.unit.file, o.src2⟩ = .ok N →
    let b := s.reg ⟨o.unit.file, o.src2⟩
    let x := s.reg ⟨o.unit.file, o.src1⟩
    let gives := fun (i : Instr) (v : Word) => exec i s = .next (issued s [⟨s.t + 1, ⟨o.unit.file, o.dst⟩, v⟩])
    gives (.addabR o) (circ b x .add N) ∧ gives (.addahR o) (circ b (x <<< 1) .add N) ∧
    gives (.addawR o) (circ b (x <<< 2) .add N) ∧ gives (.addadR o) (circ b (x <<< 3) .add N) ∧
    gives (.subabR o) (circ b x .sub N) ∧ gives (.subahR o) (circ b (x <<< 1) .sub N) ∧
    gives (.subawR o) (circ b (x <<< 2) .sub N)

/-- R131 to R137, constant forms: the offset is `ucst5`, zero-extended and shifted. -/
def Obligations.AddressArithmeticConstantForms : Prop :=
  ∀ (o : DaCstOp) (s : State) (N : Option Nat), blk s.amr ⟨o.unit.file, o.src2⟩ = .ok N →
    let b := s.reg ⟨o.unit.file, o.src2⟩
    let x : Word := BitVec.ofNat 32 o.ucst5.toNat
    let gives := fun (i : Instr) (v : Word) => exec i s = .next (issued s [⟨s.t + 1, ⟨o.unit.file, o.dst⟩, v⟩])
    gives (.addabC o) (circ b x .add N) ∧ gives (.addahC o) (circ b (x <<< 1) .add N) ∧
    gives (.addawC o) (circ b (x <<< 2) .add N) ∧ gives (.addadC o) (circ b (x <<< 3) .add N) ∧
    gives (.subabC o) (circ b x .sub N) ∧ gives (.subahC o) (circ b (x <<< 1) .sub N) ∧
    gives (.subawC o) (circ b (x <<< 2) .sub N)

/-- R150: NOP reads and writes no register and no memory; it advances pc and occupies cnt further cycles. -/
def Obligations.NopCompletes : Prop :=
  ∀ (cnt : BitVec 4) (s : State), exec (.nop cnt) s = .next { s with pc := s.pc + 1, nopLeft := cnt.toNat }

/-- R150: `NOP n` (n = cnt + 1) at `pc`, with nothing pending, takes exactly n steps and leaves pc one further, t n further
and nothing else changed. Where the NOP is the last word of `prog`, that its count goes down in the cycles at the end of `prog` is
the model's reading, log 15. -/
def Obligations.NopOccupiesItsCycles : Prop :=
  ∀ (s : State) (w : Word) (cnt : BitVec 4), Running s → s.pending = [] → s.nopLeft = 0 → s.fetch = some w →
    decode s.cfg.regsPerFile w = .ok (.nop cnt) →
    run (cnt.toNat + 1) s = .next { s with pc := s.pc + 1, t := s.t + (cnt.toNat + 1) } ∧
    ∀ k ≤ cnt.toNat, run (k + 1) s = .next { s with pc := s.pc + 1, t := s.t + (k + 1), nopLeft := cnt.toNat - k }

/-- R151, R119: MPYH, LDNDW and STNDW are refused, each by its name, in every state. -/
def Obligations.NamedInstructionsRefused : Prop :=
  ∀ (m : MOp) (o : LsOp) (s : State),
    exec (.mpyh m) s = .refused .noSemanticsMpyh ∧ exec (.ldndw o) s = .refused (.notInScope .ldndw) ∧
    exec (.stndw o) s = .refused (.notInScope .stndw)

/-! ### Faults -/

/-- R35: an aligned form at an EA that is no multiple of its length faults with the EA and the length. -/
def Obligations.MisalignedAccessFaults : Prop :=
  ∀ (o : LsOp) (p : Ls15Op) (s : State) (N : Option Nat), blk s.amr o.base = .ok N →
    ((lsEA .half o s N).toNat % 2 ≠ 0 → ∀ i ∈ [Instr.ldh o, .ldhu o, .sth o],
      exec i s = .fault (.misaligned (lsEA .half o s N) 2)) ∧
    (BlockFits N 4 → (lsEA .word o s N).toNat % 4 ≠ 0 → ∀ i ∈ [Instr.ldw o, .stw o],
      exec i s = .fault (.misaligned (lsEA .word o s N) 4)) ∧
    (BlockFits N 8 → (lsEA .dword o s N).toNat % 8 ≠ 0 → ∀ i ∈ [Instr.lddw o, .stdw o],
      exec i s = .fault (.misaligned (lsEA .dword o s N) 8)) ∧
    ((ls15EA .half p s).toNat % 2 ≠ 0 → ∀ i ∈ [Instr.ldh15 p, .ldhu15 p, .sth15 p],
      exec i s = .fault (.misaligned (ls15EA .half p s) 2)) ∧
    ((ls15EA .word p s).toNat % 4 ≠ 0 → ∀ i ∈ [Instr.ldw15 p, .stw15 p],
      exec i s = .fault (.misaligned (ls15EA .word p s) 4))

/-- R38: a load or store through a circular base whose block is shorter than the datum faults with N and the length. -/
def Obligations.ShortBlockFaults : Prop :=
  ∀ (o : LsOp) (s : State) (N : Nat), blk s.amr o.base = .ok (some N) →
    (2 ^ (N + 1) < 4 → ∀ i ∈ [Instr.ldw o, .ldnw o, .stw o, .stnw o],
      exec i s = .fault (.blockSmallerThanDatum N 4)) ∧
    (2 ^ (N + 1) < 8 → ∀ i ∈ [Instr.lddw o, .stdw o], exec i s = .fault (.blockSmallerThanDatum N 8))

/-- R42, R120: the first byte of the access that is outside `alloc` is reported, before any byte without a value is (log 6). -/
def Obligations.UnallocatedAccessFaults : Prop :=
  ∀ (o : LsOp) (p : Ls15Op) (s : State) (N : Option Nat) (k : Nat), blk s.amr o.base = .ok N →
    (¬ Allocated s (lsEA .byte o s N) → ∀ i ∈ [Instr.ldb o, .ldbu o, .stb o],
      exec i s = .fault (.unallocatedAccess (lsEA .byte o s N))) ∧
    (k < 2 → (lsEA .half o s N).toNat % 2 = 0 → (∀ j < k, Allocated s (byteAddr (lsEA .half o s N) N j)) →
      ¬ Allocated s (byteAddr (lsEA .half o s N) N k) → ∀ i ∈ [Instr.ldh o, .ldhu o, .sth o],
      exec i s = .fault (.unallocatedAccess (byteAddr (lsEA .half o s N) N k))) ∧
    (k < 4 → BlockFits N 4 → (∀ j < k, Allocated s (byteAddr (lsEA .word o s N) N j)) →
      ¬ Allocated s (byteAddr (lsEA .word o s N) N k) →
      (∀ i ∈ [Instr.ldnw o, .stnw o], exec i s = .fault (.unallocatedAccess (byteAddr (lsEA .word o s N) N k))) ∧
      ((lsEA .word o s N).toNat % 4 = 0 → ∀ i ∈ [Instr.ldw o, .stw o],
        exec i s = .fault (.unallocatedAccess (byteAddr (lsEA .word o s N) N k)))) ∧
    (k < 8 → BlockFits N 8 → (lsEA .dword o s N).toNat % 8 = 0 →
      (∀ j < k, Allocated s (byteAddr (lsEA .dword o s N) N j)) → ¬ Allocated s (byteAddr (lsEA .dword o s N) N k) →
      ∀ i ∈ [Instr.lddw o, .stdw o], exec i s = .fault (.unallocatedAccess (byteAddr (lsEA .dword o s N) N k))) ∧
    (¬ Allocated s (ls15EA .byte p s) → ∀ i ∈ [Instr.ldb15 p, .ldbu15 p, .stb15 p],
      exec i s = .fault (.unallocatedAccess (ls15EA .byte p s))) ∧
    (k < 2 → (ls15EA .half p s).toNat % 2 = 0 → (∀ j < k, Allocated s (byteAddr (ls15EA .half p s) none j)) →
      ¬ Allocated s (byteAddr (ls15EA .half p s) none k) → ∀ i ∈ [Instr.ldh15 p, .ldhu15 p, .sth15 p],
      exec i s = .fault (.unallocatedAccess (byteAddr (ls15EA .half p s) none k))) ∧
    (k < 4 → (ls15EA .word p s).toNat % 4 = 0 → (∀ j < k, Allocated s (byteAddr (ls15EA .word p s) none j)) →
      ¬ Allocated s (byteAddr (ls15EA .word p s) none k) → ∀ i ∈ [Instr.ldw15 p, .stw15 p],
      exec i s = .fault (.unallocatedAccess (byteAddr (ls15EA .word p s) none k)))

/-- R33, R120: where every byte is allocated, a load reports the first that holds no value (log 5, log 6). -/
def Obligations.UnwrittenMemoryFaults : Prop :=
  ∀ (o : LsOp) (p : Ls15Op) (s : State) (N : Option Nat) (k : Nat), blk s.amr o.base = .ok N →
    (Allocated s (lsEA .byte o s N) → s.mem.read (lsEA .byte o s N).toNat = none → ∀ i ∈ [Instr.ldb o, .ldbu o],
      exec i s = .fault (.unwrittenMemory (lsEA .byte o s N))) ∧
    (k < 2 → (lsEA .half o s N).toNat % 2 = 0 → (∀ j < 2, Allocated s (byteAddr (lsEA .half o s N) N j)) →
      (∀ j < k, s.mem.read (byteAddr (lsEA .half o s N) N j).toNat ≠ none) →
      s.mem.read (byteAddr (lsEA .half o s N) N k).toNat = none → ∀ i ∈ [Instr.ldh o, .ldhu o],
      exec i s = .fault (.unwrittenMemory (byteAddr (lsEA .half o s N) N k))) ∧
    (k < 4 → BlockFits N 4 → (∀ j < 4, Allocated s (byteAddr (lsEA .word o s N) N j)) →
      (∀ j < k, s.mem.read (byteAddr (lsEA .word o s N) N j).toNat ≠ none) →
      s.mem.read (byteAddr (lsEA .word o s N) N k).toNat = none →
      exec (.ldnw o) s = .fault (.unwrittenMemory (byteAddr (lsEA .word o s N) N k)) ∧
      ((lsEA .word o s N).toNat % 4 = 0 →
        exec (.ldw o) s = .fault (.unwrittenMemory (byteAddr (lsEA .word o s N) N k)))) ∧
    (k < 8 → BlockFits N 8 → (lsEA .dword o s N).toNat % 8 = 0 →
      (∀ j < 8, Allocated s (byteAddr (lsEA .dword o s N) N j)) →
      (∀ j < k, s.mem.read (byteAddr (lsEA .dword o s N) N j).toNat ≠ none) →
      s.mem.read (byteAddr (lsEA .dword o s N) N k).toNat = none →
      exec (.lddw o) s = .fault (.unwrittenMemory (byteAddr (lsEA .dword o s N) N k))) ∧
    (Allocated s (ls15EA .byte p s) → s.mem.read (ls15EA .byte p s).toNat = none → ∀ i ∈ [Instr.ldb15 p, .ldbu15 p],
      exec i s = .fault (.unwrittenMemory (ls15EA .byte p s))) ∧
    (k < 2 → (ls15EA .half p s).toNat % 2 = 0 → (∀ j < 2, Allocated s (byteAddr (ls15EA .half p s) none j)) →
      (∀ j < k, s.mem.read (byteAddr (ls15EA .half p s) none j).toNat ≠ none) →
      s.mem.read (byteAddr (ls15EA .half p s) none k).toNat = none → ∀ i ∈ [Instr.ldh15 p, .ldhu15 p],
      exec i s = .fault (.unwrittenMemory (byteAddr (ls15EA .half p s) none k))) ∧
    (k < 4 → (ls15EA .word p s).toNat % 4 = 0 → (∀ j < 4, Allocated s (byteAddr (ls15EA .word p s) none j)) →
      (∀ j < k, s.mem.read (byteAddr (ls15EA .word p s) none j).toNat ≠ none) →
      s.mem.read (byteAddr (ls15EA .word p s) none k).toNat = none →
      exec (.ldw15 p) s = .fault (.unwrittenMemory (byteAddr (ls15EA .word p s) none k)))

/-! ### The step -/

/-- R183: when no NOP occupies the cycle and the word at `pc` decodes to `i`, the step is `exec i` in the state after this
cycle's landings, and t goes up by one; a word the decoder rejects is refused by the decoder's name for it. -/
def Obligations.StepRunsDecodedInstruction : Prop :=
  ∀ (s s1 : State) (w : Word), Running s → land s = .next s1 → s1.fetch = some w → s1.nopLeft = 0 →
    (∀ i, decode s1.cfg.regsPerFile w = .ok i →
      (∀ t, exec i s1 = .next t → step s = .next { t with t := t.t + 1 }) ∧
      (∀ f, exec i s1 = .fault f → step s = .fault f) ∧
      (∀ r, exec i s1 = .refused r → step s = .refused r)) ∧
    (∀ r, decode s1.cfg.regsPerFile w = .error r → step s = .refused (.word r))

/-- R183, R171: while a NOP occupies the cycle, and when `pc` is at the end of `prog`, a step only lands what is due; that the
NOP count also goes down at the end of `prog` is log 15. -/
def Obligations.StepWithoutIssueOnlyLands : Prop :=
  ∀ s s1 : State, Running s → land s = .next s1 → (s1.nopLeft ≠ 0 ∨ s1.pc = s1.cfg.prog.length) →
    step s = .next { s1 with nopLeft := s1.nopLeft - 1, t := s1.t + 1 }

/-- R183, step 1: with no two due writes in one register, landing writes each due value into its register, removes the due
writes from `pending`, and changes nothing else. -/
def Obligations.LandingWritesDueValues : Prop :=
  ∀ s : State, (s.due.map PendingWrite.reg).Nodup →
    ∃ s1, land s = .next s1 ∧ (∀ e ∈ s.pending, e.landing = s.t → s1.reg e.reg = e.value) ∧
      (∀ r, (∀ e ∈ s.pending, e.landing = s.t → e.reg ≠ r) → s1.reg r = s.reg r) ∧
      s1.pending = s.pending.filter (fun e => e.landing != s.t) ∧
      s1 = { s with regsA := s1.regsA, regsB := s1.regsB, pending := s1.pending }

/-- R185, R183, R164: two writes due in one register in one cycle are a fault that names such a register; without them no step
ends in that fault, so writes to one register landing in different cycles are no conflict. That the conflict is answered also
where the word of the cycle is refused is the model's reading, log 7; the statement leaves open which of several such
registers is named (log 8). -/
def Obligations.WriteConflictFaults : Prop :=
  ∀ s : State, Running s →
    (¬ (s.due.map PendingWrite.reg).Nodup →
      ∃ r, step s = .fault (.writeConflict r) ∧ 2 ≤ (s.due.filter fun e => e.reg == r).length) ∧
    ((s.due.map PendingWrite.reg).Nodup → ∀ r, step s ≠ .fault (.writeConflict r))

/-- R182, R184, R183: a write in flight is in its register from the cycle in which it lands: whatever steps follow, the step
of its landing cycle ends with the register holding the value. -/
def Obligations.PendingWriteLandsOnTime : Prop :=
  ∀ (n : Nat) (s s' : State) (e : PendingWrite), e ∈ s.pending → s.t ≤ e.landing → run n s = .next s' →
    s'.t = e.landing + 1 → s'.reg e.reg = e.value

/-- R182: a register keeps its value through a step in which no write to it lands; an instruction in a delay slot of a load
reads the old value of `dst`. R182 marks the value in the delay slots as its own derivation, and that no interrupt comes
between is log 13: the statement is about uninterrupted runs. -/
def Obligations.RegisterKeepsValueUntilLanding : Prop :=
  ∀ (s s' : State) (r : Reg), step s = .next s' → (∀ e ∈ s.pending, e.landing = s.t → e.reg ≠ r) → s'.reg r = s.reg r

/-- No instruction writes a register file, AMR, the parameters, t or a mark directly, and every one that goes on advances pc
by one (R14, R17, R22, R47, R170). -/
def Obligations.EveryInstructionsFrame : Prop :=
  ∀ (i : Instr) (s t : State), exec i s = .next t →
    t.pc = s.pc + 1 ∧ t.regsA = s.regsA ∧ t.regsB = s.regsB ∧ t.amr = s.amr ∧ t.cfg = s.cfg ∧ t.t = s.t ∧
    t.fault = s.fault ∧ t.refused = s.refused ∧ ∃ ws, t.pending = s.pending ++ ws ∧
      ∀ e ∈ ws, e.landing = s.t + 1 ∨ e.landing = s.t + 5

/-- R22, R47: AMR and the program are the same at every step of a run. -/
def Obligations.AmrAndProgramConstant : Prop :=
  ∀ (n : Nat) (s s' : State), run n s = .next s' → s'.amr = s.amr ∧ s'.cfg = s.cfg

/-- Only stores change memory: a step that lands and issues an instruction which is no store leaves every byte (R23). -/
def Obligations.OnlyStoresChangeMemory : Prop :=
  ∀ (i : Instr) (s t : State), exec i s = .next t →
    (∀ o : LsOp, i ≠ .stb o ∧ i ≠ .sth o ∧ i ≠ .stw o ∧ i ≠ .stnw o ∧ i ≠ .stdw o) →
    (∀ o : Ls15Op, i ≠ .stb15 o ∧ i ≠ .sth15 o ∧ i ≠ .stw15 o) →
    t.mem = s.mem

/-- R171: at the end of `prog` the run drains: within five steps either it is final or two writes conflict (log 15, log 18). -/
def Obligations.RunDrains : Prop :=
  ∀ s : State, Running s → Inv s → s.pc = s.cfg.prog.length →
    (∃ s', run 5 s = .next s' ∧ s'.final = true ∧ s'.mem = s.mem) ∨ ∃ r, run 5 s = .fault (.writeConflict r)

/-- R26: a state with a mark set is never final and its mark is not cleared. The model's choices, log 12: the step answers the
mark again, the fault mark first, and the whole state stays. -/
def Obligations.MarksAreNeverCleared : Prop :=
  ∀ s : State,
    (∀ f, s.fault = some f → step s = .fault f ∧ cycle s = s ∧ s.final = false) ∧
    (∀ r, s.refused = some r → (s.fault = none → step s = .refused r) ∧ cycle s = s ∧ s.final = false)

/-- R26, R161, R183: the machine on the spec's own state tuple agrees with the step. Where the step stops, it sets the mark for
the reason and no other; memory, pc, AMR, t, the NOP count and the parameters are those of `s`; and the registers and
`pending` are those after the landings of this cycle where the landing succeeded, and those of `s` where two due writes
conflicted. Which landings a stopped state holds, and that pc, t and the NOP count stay, is log 12. -/
def Obligations.StopKeepsLandingsAndSetsMark : Prop :=
  ∀ s : State, Running s →
    (∀ s', step s = .next s' → cycle s = s') ∧
    (∀ f, step s = .fault f → (cycle s).fault = some f ∧ (cycle s).refused = none) ∧
    (∀ r, step s = .refused r → (cycle s).refused = some r ∧ (cycle s).fault = none) ∧
    ((∀ s', step s ≠ .next s') →
      ((cycle s).mem = s.mem ∧ (cycle s).pc = s.pc ∧ (cycle s).amr = s.amr ∧ (cycle s).t = s.t ∧
        (cycle s).nopLeft = s.nopLeft ∧ (cycle s).cfg = s.cfg) ∧
      ((s.due.map PendingWrite.reg).Nodup →
        (cycle s).pending = s.pending.filter (fun e => e.landing != s.t) ∧
        (∀ e ∈ s.pending, e.landing = s.t → (cycle s).reg e.reg = e.value) ∧
        ∀ r, (∀ e ∈ s.pending, e.landing = s.t → e.reg ≠ r) → (cycle s).reg r = s.reg r) ∧
      (¬ (s.due.map PendingWrite.reg).Nodup → (cycle s).pending = s.pending ∧ ∀ r, (cycle s).reg r = s.reg r))

/-- The invariant of the machine is kept by every step. -/
def Obligations.StepKeepsInvariant : Prop := ∀ s s' : State, Inv s → step s = .next s' → Inv s'

/-- The invariant holds after reset. -/
def Obligations.ResetMeetsInvariant : Prop := Inv State.reset

/-! ### The assembler and the pipeline -/

/-- R69, R70, R71, R114, R115: what each address operand stands for. In every form `[k]` puts k into the field, `(k)` puts in k
divided by the data length, and `[offsetR]` names the register; without an offset `*R` is positive offset 0 and `*++R`, `*--R`,
`*R++`, `*R--` are the same with `[1]`. `*+B14[k]` and `*+B15[k]` put k into the 15-bit field. No word: a constant that does not
fit the field, a byte offset that is no multiple of the data length, a register outside the file of the unit, and on the
15-bit form a register offset, a negative one, a modified base or another base. The model's choices, log 23: `*R[a]` is
read as `*+R[a]`, and `*+R` and `*-R` without an offset have no word. -/
def Obligations.AssemblerAddressOperands : Prop :=
  (∀ (len : DataLen) (unit : DUnit) (b : RegIdx) (d : Reg),
    let op := fun (u : Update) (sg : Sign) (off : Offset) => some (LsOp.mk unit b u sg off d)
    let asm := fun (f : AsmForm) (off : AsmOffset) => (AsmAddr.mk f ⟨unit.file, b⟩ off).toLs len unit d
    (∀ row ∈ [(AsmForm.plain, Update.keep, Sign.add), (.plus, .keep, .add), (.minus, .keep, .sub),
        (.preInc, .pre, .add), (.preDec, .pre, .sub), (.postInc, .post, .add), (.postDec, .post, .sub)],
      (∀ k < 32, asm row.1 (.units k) = op row.2.1 row.2.2 (.cst (BitVec.ofNat 5 k)) ∧
        asm row.1 (.bytes (k * bytesOf len)) = op row.2.1 row.2.2 (.cst (BitVec.ofNat 5 k))) ∧
      (∀ k, 32 ≤ k → asm row.1 (.units k) = none ∧ asm row.1 (.bytes (k * bytesOf len)) = none) ∧
      (∀ k, k % bytesOf len ≠ 0 → asm row.1 (.bytes k) = none) ∧
      ∀ r : RegIdx, asm row.1 (.reg ⟨unit.file, r⟩) = op row.2.1 row.2.2 (.reg r)) ∧
    asm .plain .absent = op .keep .add (.cst 0) ∧ asm .preInc .absent = op .pre .add (.cst 1) ∧
    asm .preDec .absent = op .pre .sub (.cst 1) ∧ asm .postInc .absent = op .post .add (.cst 1) ∧
    asm .postDec .absent = op .post .sub (.cst 1) ∧ asm .plus .absent = none ∧ asm .minus .absent = none) ∧
  (∀ (len : DataLen) (unit : DUnit) (a : AsmAddr) (d : Reg),
    (a.base.file ≠ unit.file ∨ ∃ r, a.offset = .reg r ∧ r.file ≠ unit.file) → a.toLs len unit d = none) ∧
  (∀ (len : DataLen) (b : Base15) (d : Reg), ∀ f ∈ [AsmForm.plus, .plain],
    let asm := fun off => (AsmAddr.mk f b.reg off).toLs15 len d
    (∀ k < 2 ^ 15, asm (.units k) = some ⟨b, BitVec.ofNat 15 k, d⟩ ∧
      asm (.bytes (k * bytesOf len)) = some ⟨b, BitVec.ofNat 15 k, d⟩) ∧
    (∀ k, 2 ^ 15 ≤ k → asm (.units k) = none ∧ asm (.bytes (k * bytesOf len)) = none) ∧
    (∀ k, k % bytesOf len ≠ 0 → asm (.bytes k) = none)) ∧
  (∀ (len : DataLen) (a : AsmAddr) (d : Reg),
    ((a.form ≠ .plus ∧ a.form ≠ .plain) ∨ (∀ b : Base15, a.base ≠ b.reg) ∨ a.offset = .absent ∨
      ∃ r, a.offset = .reg r) → a.toLs15 len d = none)

/-- R186, R187, R189, R191: four fetch, two decode and five execute phases; a load's two latencies are the first and the
last execute phase. -/
def Obligations.PipelinePhases : Prop :=
  Phase.of .fetch = [.PG, .PS, .PW, .PR] ∧ Phase.of .decode = [.DP, .DC] ∧
  Phase.of .execute = [.E1, .E2, .E3, .E4, .E5] ∧ Phase.all.length = 11 ∧
  (Phase.of .execute)[addrLatency - 1]? = some .E1 ∧ (Phase.of .execute)[loadLatency - 1]? = some .E5

/-- R52: in a program whose every word decodes, each execute packet is one instruction, whether the program is divided whole or
fetch packet by fetch packet. In such a program the choices of log 26 (where a fetch packet begins and ends, a last word with
`p` = 1) make no difference. -/
def Obligations.AdmittedProgramsHaveSinglePackets : Prop :=
  ∀ (n : RegsPerFile) (ws : List Word), (∀ w ∈ ws, ∃ i, decode n w = .ok i) →
    executePackets ws = ws.map (fun w => [w]) ∧ programPackets ws = ws.map (fun w => [w])
end

