-- ==== Sys2Proof/Laws/Arith.lean ====
section
/-! SUPPORT. Block masks and circular sums as arithmetic on natural numbers, and the byte addresses of an access. -/

namespace Sys2Proof.Machine

theorem blockMask_toNat {N : Nat} (hN : N ≤ 31) : (blockMask N).toNat = 2 ^ (N + 1) - 1 := by
  have h : 2 ^ (N + 1) ≤ 2 ^ 32 := Nat.pow_le_pow_right (by decide) (by omega)
  have h1 : 0 < 2 ^ (N + 1) := Nat.two_pow_pos _
  simp only [blockMask, BitVec.toNat_ofNat]
  omega

theorem blockMask_getLsbD {N j : Nat} (hN : N ≤ 31) : (blockMask N).getLsbD j = decide (j ≤ N) := by
  rw [BitVec.getLsbD, blockMask_toNat hN, Nat.testBit_two_pow_sub_one]
  simp

/-- The circular sum keeps the block of the base and takes the linear result within it. -/
theorem circ_toNat {N : Nat} (hN : N ≤ 31) (b off : Word) (sgn : Sign) :
    (circ b off sgn (some N)).toNat =
      b.toNat / 2 ^ (N + 1) * 2 ^ (N + 1) + (lin b off sgn).toNat % 2 ^ (N + 1) := by
  have hp : 0 < 2 ^ (N + 1) := Nat.two_pow_pos _
  have hlt : (lin b off sgn).toNat % 2 ^ (N + 1) < 2 ^ (N + 1) := Nat.mod_lt _ hp
  apply Nat.eq_of_testBit_eq
  intro j
  rw [Nat.mul_comm, Nat.testBit_two_pow_mul_add _ hlt]
  have hbit : ((circ b off sgn (some N)).toNat).testBit j = (circ b off sgn (some N)).getLsbD j := rfl
  rw [hbit]
  by_cases hj : j < 32
  · simp only [circ, BitVec.getLsbD_or, BitVec.getLsbD_and, BitVec.getLsbD_not, blockMask_getLsbD hN, hj]
    by_cases hjN : j ≤ N
    · have : j < N + 1 := by omega
      simp [hjN, this, Nat.testBit_mod_two_pow, BitVec.getLsbD]
    · have h2 : ¬ j < N + 1 := by omega
      have h3 : j - (N + 1) + (N + 1) = j := by omega
      simp [hjN, h2, Nat.testBit_div_two_pow, BitVec.getLsbD, h3]
  · have h2 : ¬ j < N + 1 := by omega
    have hz : b.toNat.testBit j = false :=
      Nat.testBit_lt_two_pow (lt_of_lt_of_le b.isLt (Nat.pow_le_pow_right (by decide) (by omega)))
    have h3 : j - (N + 1) + (N + 1) = j := by omega
    rw [BitVec.getLsbD_of_ge _ _ (by omega)]
    simp [h2, Nat.testBit_div_two_pow, h3, hz]

@[simp] theorem lin_zero (b : Word) (sgn : Sign) : lin b 0#32 sgn = b := by cases sgn <;> simp [lin]

/-- A zero offset leaves the address, in either mode. -/
@[simp] theorem circ_zero (b : Word) (sgn : Sign) (N : Option Nat) : circ b 0#32 sgn N = b := by
  cases N with
  | none => simp [circ]
  | some N =>
    simp only [circ, lin_zero]
    ext j
    simp only [BitVec.getElem_or, BitVec.getElem_and, BitVec.getElem_not]
    cases b[j] <;> cases (blockMask N)[j] <;> rfl

@[simp] theorem byteAddr_zero (ea : Word) (N : Option Nat) : byteAddr ea N 0 = ea := by simp [byteAddr]

@[simp] theorem byteAddr_none (ea : Word) (k : Nat) : byteAddr ea none k = ea + BitVec.ofNat 32 k := rfl

@[simp] theorem byteAddrs_length (ea : Word) (N : Option Nat) (n : Nat) : (byteAddrs ea N n).length = n := by
  simp [byteAddrs]

theorem mem_byteAddrs {ea : Word} {N : Option Nat} {n : Nat} {a : Word} :
    a ∈ byteAddrs ea N n ↔ ∃ k < n, byteAddr ea N k = a := by
  simp [byteAddrs]

theorem amrBK0_le (amr : Word) : amrBK0 amr ≤ 31 := by
  have := (amr.extractLsb' 16 5).isLt
  simp only [amrBK0]
  omega

theorem amrBK1_le (amr : Word) : amrBK1 amr ≤ 31 := by
  have := (amr.extractLsb' 21 5).isLt
  simp only [amrBK1]
  omega

/-- A block number that AMR selects is at most 31 (R20). -/
theorem blk_le {amr : Word} {r : Reg} {N : Nat} (h : blk amr r = .ok (some N)) : N ≤ 31 := by
  unfold blk at h
  split at h
  · cases h
  · split at h
    · cases h
    · split at h
      · cases h; exact amrBK0_le amr
      · split at h
        · cases h; exact amrBK1_le amr
        · cases h

/-- With a legal AMR every base register has a circular selection (R19, R20). -/
theorem blk_of_legal {amr : Word} (h : amrLegal amr = true) (r : Reg) : ∃ N, blk amr r = .ok N := by
  unfold blk
  split
  · exact ⟨_, rfl⟩
  · rename_i k hk
    have hk8 : k < 8 := by
      obtain ⟨f, i⟩ := r
      cases f <;> simp only [circIndex] at hk <;> split at hk <;> simp at hk <;> omega
    split
    · exact ⟨_, rfl⟩
    · split
      · exact ⟨_, rfl⟩
      · split
        · exact ⟨_, rfl⟩
        · exfalso
          have h3 : amrMode amr k ≠ 0b11#2 := by
            simp only [amrLegal, Bool.and_eq_true, List.all_eq_true, decide_eq_true_eq] at h
            exact h.2 k (List.mem_range.mpr hk8)
          revert h3
          rename_i h0 h1 h2
          revert h0 h1 h2
          generalize amrMode amr k = m
          revert m
          decide

/-- The bytes of an access stand at different addresses when the block is as long as the datum (R37, R38). -/
theorem byteAddr_injective {ea : Word} {N : Option Nat} {n i j : Nat} (hn : n ≤ 8)
    (hfit : ∀ k, N = some k → k ≤ 31 ∧ n ≤ 2 ^ (k + 1)) (hi : i < n) (hj : j < n)
    (h : byteAddr ea N i = byteAddr ea N j) : i = j := by
  cases N with
  | none =>
    have h' := congrArg BitVec.toNat h
    simp only [byteAddr_none, BitVec.toNat_add, BitVec.toNat_ofNat] at h'
    have := ea.isLt
    omega
  | some N =>
    obtain ⟨hN, hle⟩ := hfit N rfl
    have h' := congrArg BitVec.toNat h
    simp only [byteAddr, circ_toNat hN, lin, BitVec.toNat_add, BitVec.toNat_ofNat] at h'
    have hd : 2 ^ (N + 1) ∣ 2 ^ 32 := Nat.pow_dvd_pow 2 (by omega)
    have hmod : (ea.toNat + i) % 2 ^ (N + 1) = (ea.toNat + j) % 2 ^ (N + 1) := by
      have e : ∀ k < n, (ea.toNat + k % 2 ^ 32) % 2 ^ 32 % 2 ^ (N + 1) = (ea.toNat + k) % 2 ^ (N + 1) := by
        intro k hk
        rw [Nat.mod_mod_of_dvd _ hd, Nat.mod_eq_of_lt (show k < 2 ^ 32 by omega)]
      rw [← e i hi, ← e j hj]
      omega
    have hij := Nat.ModEq.add_left_cancel' ea.toNat hmod
    have := Nat.mod_eq_of_lt (show i < 2 ^ (N + 1) by omega)
    have := Nat.mod_eq_of_lt (show j < 2 ^ (N + 1) by omega)
    simp only [Nat.ModEq] at hij
    omega

end Sys2Proof.Machine
end

