-- ==== Sys2Proof/Laws/Memory.lean ====
section
/-! SUPPORT. The laws of the byte store: a read after a write, and the canonical form. -/

namespace Sys2Proof.Machine

@[simp] theorem Memory.read_nil (a : Nat) : Memory.read [] a = none := rfl

@[simp] theorem Memory.read_write_same (m : Memory) (a : Nat) (b : Byte) : (m.write a b).read a = some b := by
  induction m with
  | nil => simp [Memory.write, Memory.read]
  | cons c m ih =>
    simp only [Memory.write]
    split
    · simp [Memory.read]
    · split
      · simp [Memory.read]
      · next h => simp [Memory.read, ih, Ne.symm h]

theorem Memory.read_write_ne (m : Memory) {a a' : Nat} (b : Byte) (h : a' ≠ a) : (m.write a b).read a' = m.read a' := by
  induction m with
  | nil => simp [Memory.write, Memory.read, Ne.symm h, Memory.unlisted]
  | cons c m ih =>
    simp only [Memory.write]
    split
    · simp [Memory.read, Ne.symm h]
    · split
      · next h2 => subst h2; simp [Memory.read, Ne.symm h]
      · simp [Memory.read, ih]

/-- The cells after a write are the written one and cells that were there. -/
theorem Memory.mem_write {m : Memory} {a : Nat} {b : Byte} {c : Host.Cell} (h : c ∈ m.write a b) : c = (a, b) ∨ c ∈ m := by
  induction m with
  | nil => simpa [Memory.write] using h
  | cons d m ih =>
    simp only [Memory.write] at h
    split at h
    · simpa using h
    · split at h
      · simp only [List.mem_cons] at h ⊢
        tauto
      · simp only [List.mem_cons] at h ⊢
        rcases h with h | h
        · exact .inr (.inl h)
        · exact (ih h).imp id .inr

/-- A write keeps the canonical form. -/
theorem Memory.write_wf {m : Memory} (h : m.wf) (a : Nat) (b : Byte) : (m.write a b).wf := by
  induction m with
  | nil => simp [Memory.wf, Memory.write]
  | cons c m ih =>
    obtain ⟨hc, hm⟩ := List.pairwise_cons.mp h
    simp only [Memory.write]
    split
    · next hlt =>
      refine List.pairwise_cons.mpr ⟨?_, h⟩
      intro d hd
      rcases List.mem_cons.mp hd with rfl | hd
      · exact hlt
      · exact lt_trans hlt (hc d hd)
    · split
      · next heq =>
        refine List.pairwise_cons.mpr ⟨?_, hm⟩
        intro d hd
        simpa [heq] using hc d hd
      · next hlt hne =>
        refine List.pairwise_cons.mpr ⟨?_, ih hm⟩
        intro d hd
        rcases Memory.mem_write hd with rfl | hd
        · simp only; omega
        · exact hc d hd

theorem Memory.writeAll_wf {m : Memory} (h : m.wf) (as : List Word) (bs : List Byte) : (m.writeAll as bs).wf := by
  induction as generalizing m bs with
  | nil => cases bs <;> simpa [Memory.writeAll] using h
  | cons a as ih =>
    cases bs with
    | nil => simpa [Memory.writeAll] using h
    | cons b bs => exact ih (Memory.write_wf h _ _) bs

theorem Memory.mem_writeAll {m : Memory} {as : List Word} {bs : List Byte} {c : Host.Cell}
    (h : c ∈ m.writeAll as bs) : (∃ a ∈ as, c.1 = a.toNat) ∨ c ∈ m := by
  induction as generalizing m bs with
  | nil => cases bs <;> exact .inr (by simpa [Memory.writeAll] using h)
  | cons a as ih =>
    cases bs with
    | nil => exact .inr (by simpa [Memory.writeAll] using h)
    | cons b bs =>
      rcases ih h with ⟨a', ha', e⟩ | h'
      · exact .inl ⟨a', by simp [ha'], e⟩
      · rcases Memory.mem_write h' with rfl | h''
        · exact .inl ⟨a, by simp⟩
        · exact .inr h''

/-- An address none of whose bytes is written reads as before. -/
theorem Memory.read_writeAll_ne {m : Memory} {as : List Word} {bs : List Byte} {x : Nat}
    (h : ∀ a ∈ as, x ≠ a.toNat) : (m.writeAll as bs).read x = m.read x := by
  induction as generalizing m bs with
  | nil => cases bs <;> rfl
  | cons a as ih =>
    cases bs with
    | nil => rfl
    | cons b bs =>
      have ha : x ≠ a.toNat := h a (by simp)
      simp only [Memory.writeAll]
      rw [ih (fun a' ha' => h a' (by simp [ha'])), Memory.read_write_ne _ _ ha]

/-- The last write to an address is what it reads. -/
theorem Memory.read_writeAll_last {m : Memory} {as as' : List Word} {a : Word} {bs bs' : List Byte} {b : Byte}
    (hlen : as.length = bs.length) (h : ∀ a' ∈ as', a ≠ a') :
    (m.writeAll (as ++ a :: as') (bs ++ b :: bs')).read a.toNat = some b := by
  induction as generalizing m bs with
  | nil =>
    cases bs with
    | nil =>
      simp only [List.nil_append, Memory.writeAll]
      rw [Memory.read_writeAll_ne, Memory.read_write_same]
      intro a' ha' e
      exact h a' ha' (BitVec.eq_of_toNat_eq e)
    | cons => simp at hlen
  | cons c as ih =>
    cases bs with
    | nil => simp at hlen
    | cons d bs => exact ih (by simpa using hlen)

/-- Bytes written at different addresses are read back where they were written. -/
theorem Memory.read_writeAll_get {m : Memory} {as : List Word} {bs : List Byte} {k : Nat} (hlen : as.length = bs.length)
    (hnd : as.Nodup) (hk : k < as.length) : (m.writeAll as bs).read (as[k]).toNat = some (bs[k]'(hlen ▸ hk)) := by
  induction as generalizing m bs k with
  | nil => simp at hk
  | cons a as ih =>
    cases bs with
    | nil => simp at hlen
    | cons b bs =>
      obtain ⟨ha, hnd'⟩ := List.nodup_cons.mp hnd
      cases k with
      | zero =>
        simp only [Memory.writeAll, List.getElem_cons_zero]
        rw [Memory.read_writeAll_ne, Memory.read_write_same]
        intro a' ha' e
        exact ha (BitVec.eq_of_toNat_eq e ▸ ha')
      | succ k =>
        simp only [Memory.writeAll, List.getElem_cons_succ]
        exact ih (by simpa using hlen) hnd' (by simpa using hk)

end Sys2Proof.Machine
end

