-- ==== Sys2Proof/Laws/State.lean ====
section
/-! SUPPORT. One lemma per field per update of the state, so that later proofs unfold no record update. -/

namespace Sys2Proof.Machine

/-- A register reads the same in states with the same register files. -/
theorem State.reg_congr {s t : State} (hA : t.regsA = s.regsA) (hB : t.regsB = s.regsB) (r : Reg) : t.reg r = s.reg r := by
  simp only [State.reg, hA, hB]

/-! ### setReg -/

@[simp] theorem State.reg_setReg_same (s : State) (r : Reg) (v : Word) : (s.setReg r v).reg r = v := by
  obtain ⟨f, i⟩ := r
  cases f <;> simp [State.setReg, State.reg]

theorem State.reg_setReg_ne (s : State) {r r' : Reg} (v : Word) (h : r' ≠ r) : (s.setReg r v).reg r' = s.reg r' := by
  obtain ⟨f, i⟩ := r
  obtain ⟨f', i'⟩ := r'
  cases f <;> cases f' <;> simp only [State.setReg, State.reg] <;> try rfl
  all_goals
    have : i.val ≠ i'.val := fun e => h (by rw [Fin.ext e])
    simp [this]

@[simp] theorem State.cfg_setReg (s : State) (r : Reg) (v : Word) : (s.setReg r v).cfg = s.cfg := by
  cases r with | mk f i => cases f <;> rfl

@[simp] theorem State.amr_setReg (s : State) (r : Reg) (v : Word) : (s.setReg r v).amr = s.amr := by
  cases r with | mk f i => cases f <;> rfl

@[simp] theorem State.pc_setReg (s : State) (r : Reg) (v : Word) : (s.setReg r v).pc = s.pc := by
  cases r with | mk f i => cases f <;> rfl

@[simp] theorem State.mem_setReg (s : State) (r : Reg) (v : Word) : (s.setReg r v).mem = s.mem := by
  cases r with | mk f i => cases f <;> rfl

@[simp] theorem State.pending_setReg (s : State) (r : Reg) (v : Word) : (s.setReg r v).pending = s.pending := by
  cases r with | mk f i => cases f <;> rfl

@[simp] theorem State.t_setReg (s : State) (r : Reg) (v : Word) : (s.setReg r v).t = s.t := by
  cases r with | mk f i => cases f <;> rfl

@[simp] theorem State.nopLeft_setReg (s : State) (r : Reg) (v : Word) : (s.setReg r v).nopLeft = s.nopLeft := by
  cases r with | mk f i => cases f <;> rfl

@[simp] theorem State.fault_setReg (s : State) (r : Reg) (v : Word) : (s.setReg r v).fault = s.fault := by
  cases r with | mk f i => cases f <;> rfl

@[simp] theorem State.refused_setReg (s : State) (r : Reg) (v : Word) : (s.setReg r v).refused = s.refused := by
  cases r with | mk f i => cases f <;> rfl

/-! ### writeAfter -/

@[simp] theorem State.cfg_writeAfter (s : State) (lat : Nat) (q : Reg) (v : Word) : (s.writeAfter lat q v).cfg = s.cfg := rfl

@[simp] theorem State.regsA_writeAfter (s : State) (lat : Nat) (q : Reg) (v : Word) : (s.writeAfter lat q v).regsA = s.regsA := rfl

@[simp] theorem State.regsB_writeAfter (s : State) (lat : Nat) (q : Reg) (v : Word) : (s.writeAfter lat q v).regsB = s.regsB := rfl

@[simp] theorem State.amr_writeAfter (s : State) (lat : Nat) (q : Reg) (v : Word) : (s.writeAfter lat q v).amr = s.amr := rfl

@[simp] theorem State.pc_writeAfter (s : State) (lat : Nat) (q : Reg) (v : Word) : (s.writeAfter lat q v).pc = s.pc := rfl

@[simp] theorem State.mem_writeAfter (s : State) (lat : Nat) (q : Reg) (v : Word) : (s.writeAfter lat q v).mem = s.mem := rfl

@[simp] theorem State.pending_writeAfter (s : State) (lat : Nat) (q : Reg) (v : Word) : (s.writeAfter lat q v).pending = s.pending ++ [⟨s.t + lat, q, v⟩] := rfl

@[simp] theorem State.t_writeAfter (s : State) (lat : Nat) (q : Reg) (v : Word) : (s.writeAfter lat q v).t = s.t := rfl

@[simp] theorem State.nopLeft_writeAfter (s : State) (lat : Nat) (q : Reg) (v : Word) : (s.writeAfter lat q v).nopLeft = s.nopLeft := rfl

@[simp] theorem State.fault_writeAfter (s : State) (lat : Nat) (q : Reg) (v : Word) : (s.writeAfter lat q v).fault = s.fault := rfl

@[simp] theorem State.refused_writeAfter (s : State) (lat : Nat) (q : Reg) (v : Word) : (s.writeAfter lat q v).refused = s.refused := rfl

@[simp] theorem State.reg_writeAfter (s : State) (lat : Nat) (q : Reg) (v : Word) (r : Reg) : (s.writeAfter lat q v).reg r = s.reg r := rfl

/-! ### advance -/

@[simp] theorem State.cfg_advance (s : State) : s.advance.cfg = s.cfg := rfl

@[simp] theorem State.regsA_advance (s : State) : s.advance.regsA = s.regsA := rfl

@[simp] theorem State.regsB_advance (s : State) : s.advance.regsB = s.regsB := rfl

@[simp] theorem State.amr_advance (s : State) : s.advance.amr = s.amr := rfl

@[simp] theorem State.pc_advance (s : State) : s.advance.pc = s.pc + 1 := rfl

@[simp] theorem State.mem_advance (s : State) : s.advance.mem = s.mem := rfl

@[simp] theorem State.pending_advance (s : State) : s.advance.pending = s.pending := rfl

@[simp] theorem State.t_advance (s : State) : s.advance.t = s.t := rfl

@[simp] theorem State.nopLeft_advance (s : State) : s.advance.nopLeft = s.nopLeft := rfl

@[simp] theorem State.fault_advance (s : State) : s.advance.fault = s.fault := rfl

@[simp] theorem State.refused_advance (s : State) : s.advance.refused = s.refused := rfl

@[simp] theorem State.reg_advance (s : State) (r : Reg) : s.advance.reg r = s.reg r := rfl

/-! ### idle -/

@[simp] theorem State.cfg_idle (s : State) : s.idle.cfg = s.cfg := rfl

@[simp] theorem State.regsA_idle (s : State) : s.idle.regsA = s.regsA := rfl

@[simp] theorem State.regsB_idle (s : State) : s.idle.regsB = s.regsB := rfl

@[simp] theorem State.amr_idle (s : State) : s.idle.amr = s.amr := rfl

@[simp] theorem State.pc_idle (s : State) : s.idle.pc = s.pc := rfl

@[simp] theorem State.mem_idle (s : State) : s.idle.mem = s.mem := rfl

@[simp] theorem State.pending_idle (s : State) : s.idle.pending = s.pending := rfl

@[simp] theorem State.t_idle (s : State) : s.idle.t = s.t := rfl

@[simp] theorem State.nopLeft_idle (s : State) : s.idle.nopLeft = s.nopLeft - 1 := rfl

@[simp] theorem State.fault_idle (s : State) : s.idle.fault = s.fault := rfl

@[simp] theorem State.refused_idle (s : State) : s.idle.refused = s.refused := rfl

@[simp] theorem State.reg_idle (s : State) (r : Reg) : s.idle.reg r = s.reg r := rfl

/-! ### tick -/

@[simp] theorem State.cfg_tick (s : State) : s.tick.cfg = s.cfg := rfl

@[simp] theorem State.regsA_tick (s : State) : s.tick.regsA = s.regsA := rfl

@[simp] theorem State.regsB_tick (s : State) : s.tick.regsB = s.regsB := rfl

@[simp] theorem State.amr_tick (s : State) : s.tick.amr = s.amr := rfl

@[simp] theorem State.pc_tick (s : State) : s.tick.pc = s.pc := rfl

@[simp] theorem State.mem_tick (s : State) : s.tick.mem = s.mem := rfl

@[simp] theorem State.pending_tick (s : State) : s.tick.pending = s.pending := rfl

@[simp] theorem State.t_tick (s : State) : s.tick.t = s.t + 1 := rfl

@[simp] theorem State.nopLeft_tick (s : State) : s.tick.nopLeft = s.nopLeft := rfl

@[simp] theorem State.fault_tick (s : State) : s.tick.fault = s.fault := rfl

@[simp] theorem State.refused_tick (s : State) : s.tick.refused = s.refused := rfl

@[simp] theorem State.reg_tick (s : State) (r : Reg) : s.tick.reg r = s.reg r := rfl

/-! ### Writes of an instruction, and landing -/

theorem State.writeBase_eq (s : State) (r : Reg) (nb : Option Word) :
    s.writeBase r nb = { s with pending := s.pending ++ (nb.map fun v => ⟨s.t + 1, r, v⟩).toList } := by
  cases nb <;> simp [State.writeBase, State.writeAfter, addrLatency]

theorem State.writeLoaded_eq (s : State) (ws : List (Reg × Word)) :
    s.writeLoaded ws = { s with pending := s.pending ++ ws.map fun p => ⟨s.t + 5, p.1, p.2⟩ } := by
  induction ws generalizing s with
  | nil => simp [State.writeLoaded]
  | cons p ws ih => simp [State.writeLoaded, ih, State.writeAfter, loadLatency]

/-- Committing writes changes the register files only. -/
theorem State.commit_eq (s : State) (l : List PendingWrite) :
    s.commit l = { s with regsA := (s.commit l).regsA, regsB := (s.commit l).regsB } := by
  induction l generalizing s with
  | nil => rfl
  | cons e l ih =>
    simp only [State.commit]
    rw [ih]
    obtain ⟨c, ⟨f, i⟩, v⟩ := e
    cases f <;> rfl

theorem State.reg_commit_of_not_mem (s : State) (l : List PendingWrite) (r : Reg) (h : ∀ e ∈ l, e.reg ≠ r) :
    (s.commit l).reg r = s.reg r := by
  induction l generalizing s with
  | nil => rfl
  | cons e l ih =>
    simp only [State.commit]
    rw [ih _ (fun e' he' => h e' (by simp [he'])), State.reg_setReg_ne _ _ (Ne.symm (h e (by simp)))]

/-- When no register is named twice, each register named takes its value. -/
theorem State.reg_commit_of_mem (s : State) (l : List PendingWrite) (hnd : (l.map PendingWrite.reg).Nodup)
    {e : PendingWrite} (he : e ∈ l) : (s.commit l).reg e.reg = e.value := by
  induction l generalizing s with
  | nil => simp at he
  | cons d l ih =>
    obtain ⟨hd, hnd'⟩ := List.nodup_cons.mp hnd
    simp only [State.commit]
    rcases List.mem_cons.mp he with rfl | he
    · rw [State.reg_commit_of_not_mem, State.reg_setReg_same]
      intro e' he' h
      exact hd (List.mem_map.mpr ⟨e', he', h⟩)
    · exact ih _ hnd' he

/-- Landing changes the register files and `pending` only. -/
theorem State.landed_eq (s : State) :
    s.landed = { s with
      regsA := s.landed.regsA, regsB := s.landed.regsB, pending := s.pending.filter fun e => e.landing != s.t } := by
  simp only [State.landed]
  rw [State.commit_eq]

@[simp] theorem State.cfg_landed (s : State) : s.landed.cfg = s.cfg := by
  rw [State.landed_eq]

@[simp] theorem State.amr_landed (s : State) : s.landed.amr = s.amr := by
  rw [State.landed_eq]

@[simp] theorem State.pc_landed (s : State) : s.landed.pc = s.pc := by
  rw [State.landed_eq]

@[simp] theorem State.mem_landed (s : State) : s.landed.mem = s.mem := by
  rw [State.landed_eq]

@[simp] theorem State.pending_landed (s : State) : s.landed.pending = s.pending.filter fun e => e.landing != s.t := by
  rw [State.landed_eq]

@[simp] theorem State.t_landed (s : State) : s.landed.t = s.t := by
  rw [State.landed_eq]

@[simp] theorem State.nopLeft_landed (s : State) : s.landed.nopLeft = s.nopLeft := by
  rw [State.landed_eq]

@[simp] theorem State.fault_landed (s : State) : s.landed.fault = s.fault := by
  rw [State.landed_eq]

@[simp] theorem State.refused_landed (s : State) : s.landed.refused = s.refused := by
  rw [State.landed_eq]

theorem State.mem_due {s : State} {e : PendingWrite} : e ∈ s.due ↔ e ∈ s.pending ∧ e.landing = s.t := by
  simp [State.due]

/-- No register is in conflict exactly when the writes name different registers. -/
theorem conflict_eq_none {l : List PendingWrite} : conflict l = none ↔ (l.map PendingWrite.reg).Nodup := by
  induction l with
  | nil => simp [conflict]
  | cons e l ih =>
    simp only [conflict, List.map_cons, List.nodup_cons]
    by_cases h : (l.any fun e' => e'.reg == e.reg) = true
    · simp only [h, if_true]
      obtain ⟨e', he', heq⟩ := List.any_eq_true.mp h
      have : e.reg ∈ l.map PendingWrite.reg := List.mem_map.mpr ⟨e', he', by simpa using heq⟩
      simp [this]
    · simp only [h, Bool.false_eq_true, if_false, ih]
      have : e.reg ∉ l.map PendingWrite.reg := by
        intro hm
        obtain ⟨e', he', heq⟩ := List.mem_map.mp hm
        exact h (List.any_eq_true.mpr ⟨e', he', by simpa using heq⟩)
      simp [this]

/-- What landing does when it answers a next state. -/
theorem land_eq_next {s s1 : State} : land s = .next s1 ↔ (s.due.map PendingWrite.reg).Nodup ∧ s1 = s.landed := by
  simp only [land]
  split
  · next r hr =>
    have : ¬ (s.due.map PendingWrite.reg).Nodup := fun h => by simp [conflict_eq_none.mpr h] at hr
    simp [this]
  · next hr => simp [conflict_eq_none.mp hr, eq_comm]

/-- Landing never refuses. -/
theorem land_ne_refused {s : State} {r : Refusal} : land s ≠ .refused r := by
  simp only [land]
  split <;> simp

theorem State.reg_landed_of_not_due (s : State) (r : Reg) (h : ∀ e ∈ s.pending, e.landing = s.t → e.reg ≠ r) :
    s.landed.reg r = s.reg r := by
  have : s.landed.reg r = (s.commit s.due).reg r := rfl
  rw [this, State.reg_commit_of_not_mem]
  intro e he
  exact h e (State.mem_due.mp he).1 (State.mem_due.mp he).2

theorem State.reg_landed_of_due (s : State) (hnd : (s.due.map PendingWrite.reg).Nodup) {e : PendingWrite}
    (he : e ∈ s.pending) (ht : e.landing = s.t) : s.landed.reg e.reg = e.value := by
  have : s.landed.reg e.reg = (s.commit s.due).reg e.reg := rfl
  rw [this, State.reg_commit_of_mem _ _ hnd (State.mem_due.mpr ⟨he, ht⟩)]

end Sys2Proof.Machine
end

