-- ==== Sys2Proof/Laws/Ops.lean ====
section
/-! SUPPORT. One lemma per shared operation: everything it can do. Callers cite these and do not unfold the operations. -/

namespace Sys2Proof.Machine

/-! ### Sequencing -/

@[simp] theorem andThen_next {α β : Type} (a : α) (f : α → Result β) : andThen (.next a) f = f a := rfl

@[simp] theorem andThen_fault {α β : Type} (r : Fault) (f : α → Result β) : andThen (.fault r) f = .fault r := rfl

@[simp] theorem andThen_refused {α β : Type} (r : Refusal) (f : α → Result β) : andThen (.refused r) f = .refused r := rfl

theorem andThen_eq_next {α β : Type} {x : Result α} {f : α → Result β} {b : β} :
    andThen x f = .next b ↔ ∃ a, x = .next a ∧ f a = .next b := by
  cases x <;> simp

@[simp] theorem orRefuse_ok {α : Type} (a : α) : orRefuse (.ok a) = (.next a : Result α) := rfl

@[simp] theorem orRefuse_error {α : Type} (r : Refusal) : orRefuse (.error r : Except Refusal α) = .refused r := rfl

theorem orRefuse_eq_next {α : Type} {x : Except Refusal α} {a : α} : orRefuse x = .next a ↔ x = .ok a := by
  cases x <;> simp

/-! ### Memory accesses -/

theorem checkAlloc_eq_next {c : Config} {as : List Word} {u : Unit} :
    checkAlloc c as = .next u ↔ ∀ a ∈ as, inAlloc c a.toNat = true := by
  induction as with
  | nil => simp [checkAlloc]
  | cons a as ih =>
    simp only [checkAlloc, List.mem_cons, forall_eq_or_imp]
    split
    · next h => simp [ih, h]
    · next h => simp [h]

theorem checkAlloc_of_all {c : Config} {as : List Word} (h : ∀ a ∈ as, inAlloc c a.toNat = true) :
    checkAlloc c as = .next () := checkAlloc_eq_next.mpr h

/-- The first byte outside `alloc` is the one reported. -/
theorem checkAlloc_of_first {c : Config} {as as' : List Word} {a : Word} (h : ∀ x ∈ as, inAlloc c x.toNat = true)
    (ha : inAlloc c a.toNat = false) : checkAlloc c (as ++ a :: as') = .fault (.unallocatedAccess a) := by
  induction as with
  | nil => simp [checkAlloc, ha]
  | cons b as ih =>
    simp only [List.cons_append, checkAlloc, h b (by simp), if_true]
    exact ih fun x hx => h x (by simp [hx])

/-- A read of several bytes answers when each holds a value. -/
theorem readAll_eq_next {m : Memory} {as : List Word} {bs : List Byte} :
    readAll m as = .next bs ↔ as.map (fun a => m.read a.toNat) = bs.map some := by
  induction as generalizing bs with
  | nil =>
    cases bs <;> simp [readAll]
  | cons a as ih =>
    simp only [readAll, List.map_cons]
    cases hm : m.read a.toNat with
    | none => cases bs <;> simp
    | some b =>
      simp only [andThen_eq_next, Host.Outcome.next.injEq]
      constructor
      · rintro ⟨bs', h', rfl⟩
        simp [ih.mp h']
      · intro h
        cases bs with
        | nil => simp at h
        | cons b' bs =>
          simp only [List.map_cons, List.cons.injEq, Option.some.injEq] at h
          exact ⟨bs, ih.mpr h.2, by rw [h.1]⟩

/-- The first byte without a value is the one reported. -/
theorem readAll_of_first {m : Memory} {as as' : List Word} {a : Word} (h : ∀ x ∈ as, m.read x.toNat ≠ none)
    (ha : m.read a.toNat = none) : readAll m (as ++ a :: as') = .fault (.unwrittenMemory a) := by
  induction as with
  | nil => simp [readAll, ha]
  | cons b as ih =>
    simp only [List.cons_append, readAll]
    cases hb : m.read b.toNat with
    | none => exact absurd hb (h b (by simp))
    | some v => simp [ih fun x hx => h x (by simp [hx])]

/-- The byte addresses up to the k-th, the k-th, and the rest. -/
theorem byteAddrs_split (ea : Word) (N : Option Nat) {n k : Nat} (hk : k < n) :
    ∃ rest, byteAddrs ea N n = byteAddrs ea N k ++ byteAddr ea N k :: rest := by
  obtain ⟨d, rfl⟩ : ∃ d, n = k + (d + 1) := ⟨n - k - 1, by omega⟩
  refine ⟨((List.range d).map fun j => byteAddr ea N (k + (j + 1))), ?_⟩
  simp only [byteAddrs, List.range_add, List.map_append, List.map_map, List.range_succ_eq_map, List.map_cons]
  simp [Function.comp_def]

theorem memReadC_eq_next {s : State} {ea : Word} {n : Nat} {N : Option Nat} {v : BitVec 64} :
    memReadC s ea n N = .next v ↔
      (∀ a ∈ byteAddrs ea N n, inAlloc s.cfg a.toNat = true) ∧
      ∃ bs, (byteAddrs ea N n).map (fun a => s.mem.read a.toNat) = bs.map some ∧ v = datumOf s.cfg.endian bs := by
  simp only [memReadC, andThen_eq_next, checkAlloc_eq_next, readAll_eq_next, Host.Outcome.next.injEq, exists_const]
  constructor
  · rintro ⟨h, bs, hb, rfl⟩
    exact ⟨h, bs, hb, rfl⟩
  · rintro ⟨h, bs, hb, rfl⟩
    exact ⟨h, bs, hb, rfl⟩

theorem memWriteC_eq_next {s s' : State} {ea : Word} {n : Nat} {N : Option Nat} {v : BitVec 64} :
    memWriteC s ea n N v = .next s' ↔
      (∀ a ∈ byteAddrs ea N n, inAlloc s.cfg a.toNat = true) ∧
      s' = { s with mem := s.mem.writeAll (byteAddrs ea N n) (bytesFor s.cfg.endian n v) } := by
  simp only [memWriteC, andThen_eq_next, checkAlloc_eq_next, Host.Outcome.next.injEq, exists_const]
  constructor <;> rintro ⟨h, rfl⟩ <;> exact ⟨h, rfl⟩

/-- An access that holds bytes `b 0`, …, `b (n-1)` reads their datum. -/
theorem memReadC_of_holds {s : State} {ea : Word} {n : Nat} {N : Option Nat} {b : Nat → Byte}
    (h : ∀ k < n, Holds s (byteAddr ea N k) (b k)) :
    memReadC s ea n N = .next (datumOf s.cfg.endian ((List.range n).map b)) := by
  refine memReadC_eq_next.mpr ⟨?_, _, ?_, rfl⟩
  · intro a ha
    obtain ⟨k, hk, rfl⟩ := mem_byteAddrs.mp ha
    exact (h k hk).1
  · simp only [byteAddrs, List.map_map]
    refine List.map_congr_left fun k hk => ?_
    exact (h k (List.mem_range.mp hk)).2

theorem memWriteC_of_allocated {s : State} {ea : Word} {n : Nat} {N : Option Nat} {v : BitVec 64}
    (h : ∀ k < n, Allocated s (byteAddr ea N k)) :
    memWriteC s ea n N v =
      .next { s with mem := s.mem.writeAll (byteAddrs ea N n) (bytesFor s.cfg.endian n v) } := by
  refine memWriteC_eq_next.mpr ⟨?_, rfl⟩
  intro a ha
  obtain ⟨k, hk, rfl⟩ := mem_byteAddrs.mp ha
  exact h k hk

/-- A read whose k-th byte is the first outside `alloc`. -/
theorem memReadC_of_unallocated {s : State} {ea : Word} {n k : Nat} {N : Option Nat} (hk : k < n)
    (h : ∀ j < k, Allocated s (byteAddr ea N j)) (hu : ¬ Allocated s (byteAddr ea N k)) :
    memReadC s ea n N = .fault (.unallocatedAccess (byteAddr ea N k)) := by
  obtain ⟨rest, hs⟩ := byteAddrs_split ea N hk
  have hu' : inAlloc s.cfg (byteAddr ea N k).toNat = false := by simpa [Allocated] using hu
  simp only [memReadC, hs]
  rw [checkAlloc_of_first _ hu', andThen_fault]
  intro x hx
  obtain ⟨j, hj, rfl⟩ := mem_byteAddrs.mp hx
  exact h j hj

/-- A write whose k-th byte is the first outside `alloc`. -/
theorem memWriteC_of_unallocated {s : State} {ea : Word} {n k : Nat} {N : Option Nat} {v : BitVec 64} (hk : k < n)
    (h : ∀ j < k, Allocated s (byteAddr ea N j)) (hu : ¬ Allocated s (byteAddr ea N k)) :
    memWriteC s ea n N v = .fault (.unallocatedAccess (byteAddr ea N k)) := by
  obtain ⟨rest, hs⟩ := byteAddrs_split ea N hk
  have hu' : inAlloc s.cfg (byteAddr ea N k).toNat = false := by simpa [Allocated] using hu
  simp only [memWriteC, hs]
  rw [checkAlloc_of_first _ hu', andThen_fault]
  intro x hx
  obtain ⟨j, hj, rfl⟩ := mem_byteAddrs.mp hx
  exact h j hj

/-- A read of allocated bytes whose k-th is the first without a value. -/
theorem memReadC_of_unwritten {s : State} {ea : Word} {n k : Nat} {N : Option Nat} (hk : k < n)
    (ha : ∀ j < n, Allocated s (byteAddr ea N j)) (h : ∀ j < k, s.mem.read (byteAddr ea N j).toNat ≠ none)
    (hu : s.mem.read (byteAddr ea N k).toNat = none) :
    memReadC s ea n N = .fault (.unwrittenMemory (byteAddr ea N k)) := by
  obtain ⟨rest, hs⟩ := byteAddrs_split ea N hk
  have hall : checkAlloc s.cfg (byteAddrs ea N n) = .next () := by
    refine checkAlloc_of_all fun x hx => ?_
    obtain ⟨j, hj, rfl⟩ := mem_byteAddrs.mp hx
    exact ha j hj
  simp only [memReadC, hall, andThen_next]
  rw [hs, readAll_of_first _ hu, andThen_fault]
  intro x hx
  obtain ⟨j, hj, rfl⟩ := mem_byteAddrs.mp hx
  exact h j hj

/-! ### The address part -/

theorem blockTooSmall_eq_false {N : Option Nat} {n : Nat} : blockTooSmall N n = false ↔ BlockFits N n := by
  cases N with
  | none => exact iff_of_true rfl trivial
  | some N =>
    change decide (2 ^ (N + 1) < n) = false ↔ n ≤ 2 ^ (N + 1)
    rw [decide_eq_false_iff_not, not_lt]

/-- A block holds at least a halfword. -/
theorem blockFits_two (N : Option Nat) {n : Nat} (hn : n ≤ 2) : BlockFits N n := by
  cases N with
  | none => trivial
  | some N =>
    have : 2 ^ 1 ≤ 2 ^ (N + 1) := Nat.pow_le_pow_right (by decide) (by omega)
    simp only [BlockFits]
    omega

/-- What the address part can answer. -/
theorem access_eq_next {len : DataLen} {al : Bool} {ad : Addressing} {s : State} {a : Access} :
    access len al ad s = .next a ↔ ∃ N, blk s.amr ad.base = .ok N ∧ BlockFits N (bytesOf len) ∧
      (al = true → (agen ad.update ad.sign (s.reg ad.base) ad.off N).1.toNat % bytesOf len = 0) ∧
      a = ⟨(agen ad.update ad.sign (s.reg ad.base) ad.off N).1, (agen ad.update ad.sign (s.reg ad.base) ad.off N).2, N⟩ := by
  simp only [access, andThen_eq_next, orRefuse_eq_next]
  have e : ∀ x : Access, ((.next x : Result Access) = .next a) ↔ a = x :=
    fun x => ⟨fun h => by cases h; rfl, fun h => by rw [h]⟩
  refine exists_congr fun N => and_congr_right fun _ => ?_
  cases hb : blockTooSmall N (bytesOf len) with
  | true =>
    have : ¬ BlockFits N (bytesOf len) := fun h => by simp [blockTooSmall_eq_false.mpr h] at hb
    simp [this]
  | false =>
    simp only [Bool.false_eq_true, if_false, blockTooSmall_eq_false.mp hb, true_and]
    cases al with
    | false => simp [e]
    | true =>
      by_cases hm : (agen ad.update ad.sign (s.reg ad.base) ad.off N).1.toNat % bytesOf len = 0 <;> simp [hm, e]

theorem access_of {len : DataLen} {al : Bool} {ad : Addressing} {s : State} {N : Option Nat}
    (hN : blk s.amr ad.base = .ok N) (hf : BlockFits N (bytesOf len))
    (ha : al = true → (agen ad.update ad.sign (s.reg ad.base) ad.off N).1.toNat % bytesOf len = 0) :
    access len al ad s =
      .next ⟨(agen ad.update ad.sign (s.reg ad.base) ad.off N).1, (agen ad.update ad.sign (s.reg ad.base) ad.off N).2, N⟩ :=
  access_eq_next.mpr ⟨N, hN, hf, ha, rfl⟩

theorem access_of_misaligned {len : DataLen} {ad : Addressing} {s : State} {N : Option Nat}
    (hN : blk s.amr ad.base = .ok N) (hf : BlockFits N (bytesOf len))
    (ha : (agen ad.update ad.sign (s.reg ad.base) ad.off N).1.toNat % bytesOf len ≠ 0) :
    access len true ad s =
      .fault (.misaligned (agen ad.update ad.sign (s.reg ad.base) ad.off N).1 (bytesOf len)) := by
  simp [access, hN, blockTooSmall_eq_false.mpr hf, ha]

theorem access_of_shortBlock {len : DataLen} {al : Bool} {ad : Addressing} {s : State} {N : Nat}
    (hN : blk s.amr ad.base = .ok (some N)) (hf : 2 ^ (N + 1) < bytesOf len) :
    access len al ad s = .fault (.blockSmallerThanDatum N (bytesOf len)) := by
  simp [access, hN, blockTooSmall, hf]

/-! ### The templates -/

theorem writeBase_toList (s : State) (r : Reg) (nb : Option Word) :
    (nb.map fun v => (⟨s.t + 1, r, v⟩ : PendingWrite)).toList = baseWrites s r nb := by
  cases nb <;> rfl

/-- What LOAD can answer (R100). -/
theorem load_eq_next {len : DataLen} {al : Bool} {results : BitVec 64 → List (Reg × Word)} {ad : Addressing}
    {s t : State} :
    load len al results ad s = .next t ↔ ∃ a v, access len al ad s = .next a ∧
      memReadC s a.ea (bytesOf len) a.blk = .next v ∧
      t = issued s (baseWrites s ad.base a.newBase ++ (results v).map fun p => ⟨s.t + 5, p.1, p.2⟩) := by
  simp only [load, andThen_eq_next, Host.Outcome.next.injEq]
  refine exists_congr fun a => ?_
  constructor
  · rintro ⟨ha, v, hv, rfl⟩
    refine ⟨v, ha, hv, ?_⟩
    rw [State.writeLoaded_eq, State.writeBase_eq, writeBase_toList]
    simp [State.advance, issued]
  · rintro ⟨v, ha, hv, rfl⟩
    refine ⟨ha, v, hv, ?_⟩
    rw [State.writeLoaded_eq, State.writeBase_eq, writeBase_toList]
    simp [State.advance, issued]

/-- What STORE can answer (R101). -/
theorem store_eq_next {len : DataLen} {al : Bool} {d : BitVec 64} {ad : Addressing} {s t : State} :
    store len al d ad s = .next t ↔ ∃ a, access len al ad s = .next a ∧
      (∀ x ∈ byteAddrs a.ea a.blk (bytesOf len), inAlloc s.cfg x.toNat = true) ∧
      t = { issued s (baseWrites s ad.base a.newBase) with
        mem := s.mem.writeAll (byteAddrs a.ea a.blk (bytesOf len)) (bytesFor s.cfg.endian (bytesOf len) d) } := by
  simp only [store, andThen_eq_next, Host.Outcome.next.injEq, memWriteC_eq_next]
  refine exists_congr fun a => ?_
  constructor
  · rintro ⟨ha, s', ⟨hal, rfl⟩, rfl⟩
    refine ⟨ha, hal, ?_⟩
    rw [State.writeBase_eq, writeBase_toList]
    rfl
  · rintro ⟨ha, hal, rfl⟩
    refine ⟨ha, _, ⟨hal, rfl⟩, ?_⟩
    rw [State.writeBase_eq, writeBase_toList]
    rfl

/-- What ADDRADD can answer (R130). -/
theorem addrAdd_eq_next {len : DataLen} {sgn : Sign} {unit : DUnit} {src2 dst : RegIdx} {off : Offset} {s t : State} :
    addrAdd len sgn unit src2 off dst s = .next t ↔ ∃ N, blk s.amr ⟨unit.file, src2⟩ = .ok N ∧
      t = issued s [⟨s.t + 1, ⟨unit.file, dst⟩,
        circ (s.reg ⟨unit.file, src2⟩) (scale len (s.offsetOperand unit.file off)) sgn N⟩] := by
  simp only [addrAdd, andThen_eq_next, orRefuse_eq_next, Host.Outcome.next.injEq]
  refine exists_congr fun N => and_congr_right fun _ => ?_
  constructor <;> rintro rfl <;> rfl

@[simp] theorem bytesFor_length (e : Endian) (n : Nat) (v : BitVec 64) : (bytesFor e n v).length = n := by
  cases e <;> simp [bytesFor, splitBytes]

/-- Byte k, in address order, of the bytes written. -/
theorem bytesFor_getElem (e : Endian) (n : Nat) (v : BitVec 64) (k : Nat) (hk : k < n) :
    (bytesFor e n v)[k]'(by simpa using hk) = byteOf e n v k := by
  cases e with
  | little => simp [bytesFor, splitBytes, byteOf]
  | big =>
    simp only [bytesFor, splitBytes, byteOf, List.getElem_reverse, List.getElem_map, List.getElem_range, List.length_map,
      List.length_range]

end Sys2Proof.Machine
end

