-- ==== Sys2Proof/Laws/Exec.lean ====
section
/-! SUPPORT. What one instruction can do, said once for all of them, and what one step can do. -/

namespace Sys2Proof.Machine

/-- What an instruction may do to a state, as far as every instruction obeys it: pc goes on by one, writes are issued with
the two latencies, memory stays canonical and gains only bytes of `alloc`, and nothing else but the NOP count changes. -/
structure Effect (s t : State) (ws : List PendingWrite) : Prop where
  shape : t = { issued s ws with mem := t.mem, nopLeft := t.nopLeft }
  landing : ∀ e ∈ ws, e.landing = s.t + 1 ∨ e.landing = s.t + 5
  memWf : s.mem.wf → t.mem.wf
  memCells : ∀ c ∈ t.mem, c ∈ s.mem ∨ (c.1 < 2 ^ 32 ∧ inAlloc s.cfg c.1 = true)

/-- The writes name registers of a machine with `n` registers per file. -/
def WritesExist (n : RegsPerFile) (ws : List PendingWrite) : Prop := ∀ e ∈ ws, e.reg.idx.val < n.count

theorem effect_issued (s : State) (ws : List PendingWrite) (h : ∀ e ∈ ws, e.landing = s.t + 1 ∨ e.landing = s.t + 5) :
    Effect s (issued s ws) ws :=
  ⟨rfl, h, id, fun _ hc => .inl hc⟩

theorem baseWrites_landing {s : State} {r : Reg} {nb : Option Word} {e : PendingWrite} (h : e ∈ baseWrites s r nb) :
    e.landing = s.t + 1 ∧ e.reg = r := by
  cases nb with
  | none => simp [baseWrites] at h
  | some v =>
    simp only [baseWrites, List.mem_singleton] at h
    subst h
    exact ⟨rfl, rfl⟩

/-- LOAD's effect, with the registers it may write. -/
theorem load_effect {len : DataLen} {al : Bool} {results : BitVec 64 → List (Reg × Word)} {ad : Addressing} {s t : State}
    (h : load len al results ad s = .next t) :
    t.mem = s.mem ∧ t.nopLeft = s.nopLeft ∧ ∃ ws v, Effect s t ws ∧
      ∀ e ∈ ws, e.reg = ad.base ∧ ad.update ≠ .keep ∨ e.reg ∈ (results v).map Prod.fst := by
  obtain ⟨a, v, ha, -, rfl⟩ := load_eq_next.mp h
  obtain ⟨N, -, -, -, rfl⟩ := access_eq_next.mp ha
  refine ⟨rfl, rfl, _, v, effect_issued _ _ ?_, ?_⟩
  · intro e he
    rcases List.mem_append.mp he with he | he
    · exact .inl (baseWrites_landing he).1
    · obtain ⟨p, -, rfl⟩ := List.mem_map.mp he
      exact .inr rfl
  · intro e he
    rcases List.mem_append.mp he with he | he
    · refine .inl ⟨(baseWrites_landing he).2, ?_⟩
      intro hk
      simp [hk, agen, baseWrites] at he
    · obtain ⟨p, hp, rfl⟩ := List.mem_map.mp he
      exact .inr (List.mem_map.mpr ⟨p, hp, rfl⟩)

/-- STORE's effect: it writes no register but its base. -/
theorem store_effect {len : DataLen} {al : Bool} {d : BitVec 64} {ad : Addressing} {s t : State}
    (h : store len al d ad s = .next t) :
    t.nopLeft = s.nopLeft ∧ ∃ ws, Effect s t ws ∧ ∀ e ∈ ws, e.reg = ad.base := by
  obtain ⟨a, -, hal, rfl⟩ := store_eq_next.mp h
  refine ⟨rfl, _, ⟨rfl, fun e he => .inl (baseWrites_landing he).1, fun hw => Memory.writeAll_wf hw _ _, ?_⟩,
    fun e he => (baseWrites_landing he).2⟩
  intro c hc
  rcases Memory.mem_writeAll hc with ⟨x, hx, e⟩ | hc
  · exact .inr ⟨e ▸ x.isLt, e ▸ hal x hx⟩
  · exact .inl hc

/-- ADDRADD's effect. -/
theorem addrAdd_effect {len : DataLen} {sgn : Sign} {unit : DUnit} {src2 dst : RegIdx} {off : Offset} {s t : State}
    (h : addrAdd len sgn unit src2 off dst s = .next t) :
    t.mem = s.mem ∧ t.nopLeft = s.nopLeft ∧ ∃ ws, Effect s t ws ∧ ∀ e ∈ ws, e.reg.idx = dst := by
  obtain ⟨N, -, rfl⟩ := addrAdd_eq_next.mp h
  refine ⟨rfl, rfl, _, effect_issued _ _ ?_, ?_⟩ <;> intro e he <;> rw [List.mem_singleton] at he <;> subst he
  · exact .inl rfl
  · rfl

theorem regsExist_iff {n : RegsPerFile} {l : List RegIdx} :
    regsExist n l = true ↔ ∀ r ∈ l, r.val < n.count := by
  simp [regsExist]

/-- The odd register of a pair exists with the even one. -/
theorem pairOdd_lt {n : RegsPerFile} {r : Reg} (h : r.idx.val < n.count) (he : r.idx.val % 2 = 0) :
    r.pairOdd.idx.val < n.count := by
  have h31 : r.idx.val < 32 := r.idx.isLt
  have hv : (r.idx + 1).val = (r.idx.val + 1) % 32 := by simp [Fin.val_add]
  simp only [Reg.pairOdd, hv]
  cases n <;> simp only [RegsPerFile.count] at * <;> omega

/-- LOAD of a single register, for a well-formed operand. -/
theorem loadSingle_effect {len len' : DataLen} {al : Bool} {f : BitVec 64 → Word} {o : LsOp} {s t : State}
    (h : load len al (fun v => [(o.data, f v)]) (lsAddressing len' o s) s = .next t) :
    t.mem = s.mem ∧ t.nopLeft = s.nopLeft ∧ ∃ ws, Effect s t ws ∧ ∀ n, o.LoadOk n → WritesExist n ws := by
  obtain ⟨hm, hn, ws, v, he, hr⟩ := load_effect h
  refine ⟨hm, hn, ws, he, fun n hok e hmem => ?_⟩
  have hall := regsExist_iff.mp hok.1
  rcases hr e hmem with ⟨hb, -⟩ | hd
  · rw [hb]; exact hall _ (by simp [LsOp.regIdx, lsAddressing, LsOp.base])
  · simp only [List.map_cons, List.map_nil, List.mem_singleton] at hd
    rw [hd]; exact hall _ (by simp [LsOp.regIdx])

/-- LOAD of a single register in format LS15. -/
theorem load15_effect {len len' : DataLen} {al : Bool} {f : BitVec 64 → Word} {o : Ls15Op} {s t : State}
    (h : load len al (fun v => [(o.data, f v)]) (ls15Addressing len' o) s = .next t) :
    t.mem = s.mem ∧ t.nopLeft = s.nopLeft ∧ ∃ ws, Effect s t ws ∧ ∀ n, o.Ok n → WritesExist n ws := by
  obtain ⟨hm, hn, ws, v, he, hr⟩ := load_effect h
  refine ⟨hm, hn, ws, he, fun n hok e hmem => ?_⟩
  have hall := regsExist_iff.mp hok
  rcases hr e hmem with ⟨-, hk⟩ | hd
  · exact absurd rfl hk
  · simp only [List.map_cons, List.map_nil, List.mem_singleton] at hd
    rw [hd]; exact hall _ (by simp)

/-- STORE in format LS, for an operand whose registers exist. -/
theorem storeLs_effect {len len' : DataLen} {al : Bool} {d : BitVec 64} {o : LsOp} {s t : State}
    (h : store len al d (lsAddressing len' o s) s = .next t) :
    t.nopLeft = s.nopLeft ∧ ∃ ws, Effect s t ws ∧ ∀ n, regsExist n o.regIdx = true → WritesExist n ws := by
  obtain ⟨hn, ws, he, hr⟩ := store_effect h
  refine ⟨hn, ws, he, fun n hok e hmem => ?_⟩
  rw [hr e hmem]
  exact regsExist_iff.mp hok _ (by simp [LsOp.regIdx, lsAddressing, LsOp.base])

/-- STORE in format LS15: it writes no register. -/
theorem store15_effect {len len' : DataLen} {al : Bool} {d : BitVec 64} {o : Ls15Op} {s t : State}
    (h : store len al d (ls15Addressing len' o) s = .next t) :
    t.nopLeft = s.nopLeft ∧ ∃ ws, Effect s t ws ∧ ∀ n, WritesExist n ws := by
  obtain ⟨hn, ws, he, hr⟩ := store_effect h
  refine ⟨hn, ws, he, fun n e hmem => ?_⟩
  rw [hr e hmem]
  simp only [ls15Addressing]
  cases o.base <;> cases n <;> decide

/-- Everything an instruction can do when it answers a next state: the effect of `Effect`; for a well-formed instruction the
writes name registers of the machine, and only a NOP sets the NOP count, to at most eight. -/
theorem exec_effect {i : Instr} {s t : State} (h : exec i s = .next t) :
    ∃ ws, Effect s t ws ∧ ∀ n, WellFormed n i → WritesExist n ws ∧ (t.nopLeft = s.nopLeft ∨ t.nopLeft ≤ 8) := by
  cases i with
  | ldhu o => obtain ⟨-, hn, ws, he, hr⟩ := loadSingle_effect h; exact ⟨ws, he, fun n hw => ⟨hr n hw, .inl hn⟩⟩
  | ldbu o => obtain ⟨-, hn, ws, he, hr⟩ := loadSingle_effect h; exact ⟨ws, he, fun n hw => ⟨hr n hw, .inl hn⟩⟩
  | ldb o => obtain ⟨-, hn, ws, he, hr⟩ := loadSingle_effect h; exact ⟨ws, he, fun n hw => ⟨hr n hw, .inl hn⟩⟩
  | stb o => obtain ⟨hn, ws, he, hr⟩ := storeLs_effect h; exact ⟨ws, he, fun n hw => ⟨hr n hw, .inl hn⟩⟩
  | ldh o => obtain ⟨-, hn, ws, he, hr⟩ := loadSingle_effect h; exact ⟨ws, he, fun n hw => ⟨hr n hw, .inl hn⟩⟩
  | sth o => obtain ⟨hn, ws, he, hr⟩ := storeLs_effect h; exact ⟨ws, he, fun n hw => ⟨hr n hw, .inl hn⟩⟩
  | ldw o => obtain ⟨-, hn, ws, he, hr⟩ := loadSingle_effect h; exact ⟨ws, he, fun n hw => ⟨hr n hw, .inl hn⟩⟩
  | stw o => obtain ⟨hn, ws, he, hr⟩ := storeLs_effect h; exact ⟨ws, he, fun n hw => ⟨hr n hw, .inl hn⟩⟩
  | ldnw o => obtain ⟨-, hn, ws, he, hr⟩ := loadSingle_effect h; exact ⟨ws, he, fun n hw => ⟨hr n hw, .inl hn⟩⟩
  | stdw o => obtain ⟨hn, ws, he, hr⟩ := storeLs_effect h; exact ⟨ws, he, fun n hw => ⟨hr n hw.1, .inl hn⟩⟩
  | stnw o => obtain ⟨hn, ws, he, hr⟩ := storeLs_effect h; exact ⟨ws, he, fun n hw => ⟨hr n hw, .inl hn⟩⟩
  | lddw o =>
    obtain ⟨-, hn, ws, v, he, hr⟩ := load_effect h
    refine ⟨ws, he, fun n hw => ⟨fun e hmem => ?_, .inl hn⟩⟩
    have hall := regsExist_iff.mp hw.1
    have hd : o.data.idx.val < n.count := hall _ (by simp [LsOp.regIdx])
    rcases hr e hmem with ⟨hb, -⟩ | hd'
    · rw [hb]; exact hall _ (by simp [LsOp.regIdx, lsAddressing, LsOp.base])
    · simp only [List.map_cons, List.map_nil, List.mem_cons, List.not_mem_nil, or_false] at hd'
      rcases hd' with hd' | hd' <;> rw [hd']
      · exact hd
      · exact pairOdd_lt hd hw.2.1
  | ldhu15 o => obtain ⟨-, hn, ws, he, hr⟩ := load15_effect h; exact ⟨ws, he, fun n hw => ⟨hr n hw, .inl hn⟩⟩
  | ldbu15 o => obtain ⟨-, hn, ws, he, hr⟩ := load15_effect h; exact ⟨ws, he, fun n hw => ⟨hr n hw, .inl hn⟩⟩
  | ldb15 o => obtain ⟨-, hn, ws, he, hr⟩ := load15_effect h; exact ⟨ws, he, fun n hw => ⟨hr n hw, .inl hn⟩⟩
  | stb15 o => obtain ⟨hn, ws, he, hr⟩ := store15_effect h; exact ⟨ws, he, fun n _ => ⟨hr n, .inl hn⟩⟩
  | ldh15 o => obtain ⟨-, hn, ws, he, hr⟩ := load15_effect h; exact ⟨ws, he, fun n hw => ⟨hr n hw, .inl hn⟩⟩
  | sth15 o => obtain ⟨hn, ws, he, hr⟩ := store15_effect h; exact ⟨ws, he, fun n _ => ⟨hr n, .inl hn⟩⟩
  | ldw15 o => obtain ⟨-, hn, ws, he, hr⟩ := load15_effect h; exact ⟨ws, he, fun n hw => ⟨hr n hw, .inl hn⟩⟩
  | stw15 o => obtain ⟨hn, ws, he, hr⟩ := store15_effect h; exact ⟨ws, he, fun n _ => ⟨hr n, .inl hn⟩⟩
  | nop cnt =>
    simp only [exec, execNop, Host.Outcome.next.injEq] at h
    subst h
    exact ⟨[], ⟨by simp [issued, State.advance], by simp, id, fun c hc => .inl hc⟩,
      fun n hw => ⟨by simp [WritesExist], .inr hw⟩⟩
  | mpyh o => cases h
  | ldndw o => cases h
  | stndw o => cases h
  | _ o =>
    obtain ⟨-, hn, ws, he, hr⟩ := addrAdd_effect h
    exact ⟨ws, he, fun n hw => ⟨fun e hmem => hr e hmem ▸ regsExist_iff.mp hw _ (by simp), .inl hn⟩⟩

end Sys2Proof.Machine
end

