-- ==== Sys2Proof/Laws/Access.lean ====
section
/-! SUPPORT. What LOAD, STORE and the accesses answer under conditions on the operands alone: the datum of the bytes read, the
completion of each template, and each of its faults. -/

namespace Sys2Proof.Machine

/-! ### The datum of an access -/

theorem datumOf_byte (e : Endian) (b : Nat → Byte) : (datumOf e ((List.range 1).map b)).setWidth 8 = b 0 := by
  cases e <;> simp [datumOf, joinBytes, List.range_succ]

theorem datumOf_half (e : Endian) (b : Nat → Byte) : (datumOf e ((List.range 2).map b)).setWidth 16 = halfOf e b := by
  cases e <;>
    simp only [datumOf, joinBytes, List.range_succ, List.range_zero, halfOf, List.nil_append,
      List.map_cons, List.map_nil, List.reverse_cons, List.reverse_nil, List.cons_append] <;>
    ext j hj <;> simp <;> grind

theorem datumOf_word (e : Endian) (b : Nat → Byte) : (datumOf e ((List.range 4).map b)).setWidth 32 = wordOf e b := by
  cases e <;>
    simp only [datumOf, joinBytes, List.range_succ, List.range_zero, wordOf, List.nil_append,
      List.map_cons, List.map_nil, List.reverse_cons, List.reverse_nil, List.cons_append] <;>
    ext j hj <;> simp <;> grind

theorem datumOf_dword (e : Endian) (b : Nat → Byte) : datumOf e ((List.range 8).map b) = dwordOf e b := by
  cases e <;>
    simp only [datumOf, joinBytes, List.range_succ, List.range_zero, dwordOf, List.nil_append,
      List.map_cons, List.map_nil, List.reverse_cons, List.reverse_nil, List.cons_append] <;>
    ext j hj <;> simp <;> grind

/-- The stored bytes of a register are those of its low bytes. -/
theorem byteOf_setWidth (e : Endian) {n k : Nat} (hn : n ≤ 4) (v : Word) (hk : k < n) :
    byteOf e n (v.setWidth 64) k = byteOf e n v k := by
  cases e <;> simp only [byteOf] <;> ext j hj <;> simp <;> omega

/-! ### Completion -/

/-- The base registers of format LS15 are linear (R91). -/
theorem blk_base15 (amr : Word) (b : Base15) : blk amr b.reg = .ok none := by cases b <;> rfl

/-- LOAD completes when the block holds the datum, EA is aligned where the form asks for it, and every byte has a value. -/
theorem load_of {len : DataLen} {al : Bool} {results : BitVec 64 → List (Reg × Word)} {ad : Addressing} {s : State}
    {N : Option Nat} {b : Nat → Byte} (hN : blk s.amr ad.base = .ok N) (hf : BlockFits N (bytesOf len))
    (ha : al = true → (agen ad.update ad.sign (s.reg ad.base) ad.off N).1.toNat % bytesOf len = 0)
    (h : ∀ k < bytesOf len, Holds s (byteAddr (agen ad.update ad.sign (s.reg ad.base) ad.off N).1 N k) (b k)) :
    load len al results ad s =
      .next (issued s (baseWrites s ad.base (agen ad.update ad.sign (s.reg ad.base) ad.off N).2 ++
        (results (datumOf s.cfg.endian ((List.range (bytesOf len)).map b))).map fun p => ⟨s.t + 5, p.1, p.2⟩)) :=
  load_eq_next.mpr ⟨_, _, access_of hN hf ha, memReadC_of_holds h, rfl⟩

/-- STORE completes under the same conditions, with its bytes only allocated, and stores exactly those bytes. -/
theorem store_of {len : DataLen} {al : Bool} {d : BitVec 64} {ad : Addressing} {s : State} {N : Option Nat}
    (hN : blk s.amr ad.base = .ok N) (hf : BlockFits N (bytesOf len))
    (ha : al = true → (agen ad.update ad.sign (s.reg ad.base) ad.off N).1.toNat % bytesOf len = 0)
    (h : ∀ k < bytesOf len, Allocated s (byteAddr (agen ad.update ad.sign (s.reg ad.base) ad.off N).1 N k)) :
    ∃ t, store len al d ad s = .next t ∧
      issuedWithMem s t (baseWrites s ad.base (agen ad.update ad.sign (s.reg ad.base) ad.off N).2) ∧
      StoresBytes s t (byteAddr (agen ad.update ad.sign (s.reg ad.base) ad.off N).1 N) (bytesOf len)
        (byteOf s.cfg.endian (bytesOf len) d) := by
  generalize hea : agen ad.update ad.sign (s.reg ad.base) ad.off N = p at *
  refine ⟨_, store_eq_next.mpr ⟨_, access_of hN hf (hea ▸ ha), ?_, rfl⟩, ?_, ?_, ?_⟩
  · intro x hx
    rw [hea] at hx
    obtain ⟨k, hk, rfl⟩ := mem_byteAddrs.mp hx
    exact h k hk
  · rw [hea]; rfl
  · rw [hea]
    intro k hk
    have hn : bytesOf len ≤ 8 := by cases len <;> decide
    have hnd : (byteAddrs p.1 N (bytesOf len)).Nodup := by
      refine List.Nodup.map_on (fun i hi j hj e => ?_) List.nodup_range
      refine byteAddr_injective hn (fun k e => ?_) (List.mem_range.mp hi) (List.mem_range.mp hj) e
      subst e
      exact ⟨blk_le hN, hf⟩
    have hr := Memory.read_writeAll_get (m := s.mem) (as := byteAddrs p.1 N (bytesOf len))
      (bs := bytesFor s.cfg.endian (bytesOf len) d) (k := k) (by simp) hnd (by simpa using hk)
    rw [bytesFor_getElem _ _ _ _ hk] at hr
    rw [← hr]
    simp [byteAddrs]
  · rw [hea]
    intro a hk
    refine Memory.read_writeAll_ne fun x hx => ?_
    obtain ⟨k, hk', rfl⟩ := mem_byteAddrs.mp hx
    exact hk k hk'

/-! ### Faults -/

/-- A fault of the address part is LOAD's. -/
theorem load_of_access_fault {len : DataLen} {al : Bool} {results : BitVec 64 → List (Reg × Word)} {ad : Addressing}
    {s : State} {f : Fault} (h : access len al ad s = .fault f) : load len al results ad s = .fault f := by
  simp [load, h]

/-- A fault of the address part is STORE's. -/
theorem store_of_access_fault {len : DataLen} {al : Bool} {d : BitVec 64} {ad : Addressing} {s : State} {f : Fault}
    (h : access len al ad s = .fault f) : store len al d ad s = .fault f := by
  simp [store, h]

/-- LOAD reports the first byte outside `alloc`. -/
theorem load_of_unallocated {len : DataLen} {al : Bool} {results : BitVec 64 → List (Reg × Word)} {ad : Addressing}
    {s : State} {N : Option Nat} {k : Nat} (hN : blk s.amr ad.base = .ok N) (hf : BlockFits N (bytesOf len))
    (ha : al = true → (agen ad.update ad.sign (s.reg ad.base) ad.off N).1.toNat % bytesOf len = 0) (hk : k < bytesOf len)
    (h : ∀ j < k, Allocated s (byteAddr (agen ad.update ad.sign (s.reg ad.base) ad.off N).1 N j))
    (hu : ¬ Allocated s (byteAddr (agen ad.update ad.sign (s.reg ad.base) ad.off N).1 N k)) :
    load len al results ad s =
      .fault (.unallocatedAccess (byteAddr (agen ad.update ad.sign (s.reg ad.base) ad.off N).1 N k)) := by
  simp [load, access_of hN hf ha, memReadC_of_unallocated hk h hu]

/-- STORE reports the first byte outside `alloc`. -/
theorem store_of_unallocated {len : DataLen} {al : Bool} {d : BitVec 64} {ad : Addressing} {s : State} {N : Option Nat}
    {k : Nat} (hN : blk s.amr ad.base = .ok N) (hf : BlockFits N (bytesOf len))
    (ha : al = true → (agen ad.update ad.sign (s.reg ad.base) ad.off N).1.toNat % bytesOf len = 0) (hk : k < bytesOf len)
    (h : ∀ j < k, Allocated s (byteAddr (agen ad.update ad.sign (s.reg ad.base) ad.off N).1 N j))
    (hu : ¬ Allocated s (byteAddr (agen ad.update ad.sign (s.reg ad.base) ad.off N).1 N k)) :
    store len al d ad s =
      .fault (.unallocatedAccess (byteAddr (agen ad.update ad.sign (s.reg ad.base) ad.off N).1 N k)) := by
  simp [store, access_of hN hf ha, memWriteC_of_unallocated hk h hu]

/-- LOAD reports the first byte without a value when all are allocated. -/
theorem load_of_unwritten {len : DataLen} {al : Bool} {results : BitVec 64 → List (Reg × Word)} {ad : Addressing}
    {s : State} {N : Option Nat} {k : Nat} (hN : blk s.amr ad.base = .ok N) (hf : BlockFits N (bytesOf len))
    (ha : al = true → (agen ad.update ad.sign (s.reg ad.base) ad.off N).1.toNat % bytesOf len = 0) (hk : k < bytesOf len)
    (hal : ∀ j < bytesOf len, Allocated s (byteAddr (agen ad.update ad.sign (s.reg ad.base) ad.off N).1 N j))
    (h : ∀ j < k, s.mem.read (byteAddr (agen ad.update ad.sign (s.reg ad.base) ad.off N).1 N j).toNat ≠ none)
    (hu : s.mem.read (byteAddr (agen ad.update ad.sign (s.reg ad.base) ad.off N).1 N k).toNat = none) :
    load len al results ad s =
      .fault (.unwrittenMemory (byteAddr (agen ad.update ad.sign (s.reg ad.base) ad.off N).1 N k)) := by
  simp [load, access_of hN hf ha, memReadC_of_unwritten hk hal h hu]

end Sys2Proof.Machine
end

