-- ==== Sys2Proof/Laws/Decode.lean ====
section
/-! SUPPORT. The fields of an encoded word, one lemma per format, and the decoder's checks against well-formedness. -/

namespace Sys2Proof

@[simp] theorem checkLoad_eq_none {n : RegsPerFile} {o : LsOp} : checkLoad n o = none ↔ o.LoadOk n := by
  unfold checkLoad LsOp.LoadOk
  cases regsExist n o.regIdx <;> cases o.writesOwnBase [o.data] <;> decide

@[simp] theorem checkLoadPair_eq_none {n : RegsPerFile} {o : LsOp} : checkLoadPair n o = none ↔ o.LoadPairOk n := by
  unfold checkLoadPair LsOp.LoadPairOk
  rcases Nat.mod_two_eq_zero_or_one o.data.idx.val with h | h <;> rw [h] <;>
    cases regsExist n o.regIdx <;> cases o.writesOwnBase [o.data, o.data.pairOdd] <;> decide

@[simp] theorem checkStore_eq_none {n : RegsPerFile} {o : LsOp} : checkStore n o = none ↔ o.StoreOk n := by
  unfold checkStore LsOp.StoreOk
  cases regsExist n o.regIdx <;> decide

@[simp] theorem checkStorePair_eq_none {n : RegsPerFile} {o : LsOp} : checkStorePair n o = none ↔ o.StorePairOk n := by
  unfold checkStorePair LsOp.StorePairOk
  rcases Nat.mod_two_eq_zero_or_one o.data.idx.val with h | h <;> rw [h] <;> cases regsExist n o.regIdx <;> decide

@[simp] theorem check15_eq_none {n : RegsPerFile} {o : Ls15Op} : check15 n o = none ↔ o.Ok n := by
  unfold check15 Ls15Op.Ok
  cases regsExist n [o.data.idx] <;> decide

@[simp] theorem checkDaReg_eq_none {n : RegsPerFile} {o : DaRegOp} : checkDaReg n o = none ↔ o.Ok n := by
  unfold checkDaReg DaRegOp.Ok
  cases regsExist n [o.src2, o.src1, o.dst] <;> decide

@[simp] theorem checkDaCst_eq_none {n : RegsPerFile} {o : DaCstOp} : checkDaCst n o = none ↔ o.Ok n := by
  unfold checkDaCst DaCstOp.Ok
  cases regsExist n [o.src2, o.dst] <;> decide

/-- The decoder's checks refuse nothing exactly when the instruction is well formed. -/
theorem check_eq_none {n : RegsPerFile} {i : Instr} : check n i = none ↔ WellFormed n i := by
  cases i <;> simp only [check, WellFormed, checkLoad_eq_none, checkLoadPair_eq_none, checkStore_eq_none,
    checkStorePair_eq_none, check15_eq_none, checkDaReg_eq_none, checkDaCst_eq_none]
  split <;> simp <;> omega

/-- Decoding answers an instruction exactly when the format does and the instruction is well formed. -/
theorem decode_eq_ok {n : RegsPerFile} {w : Word} {i : Instr} :
    decode n w = .ok i ↔ decodeFormat w = .ok i ∧ WellFormed n i := by
  rw [← check_eq_none]
  unfold decode
  cases h : decodeFormat w with
  | error r => simp
  | ok j =>
    simp only [Except.ok.injEq]
    cases hc : check n j with
    | some r =>
      refine ⟨fun e => ?_, fun ⟨e, e'⟩ => ?_⟩
      · cases e
      · rw [← e, hc] at e'; cases e'
    | none => exact ⟨fun e => by cases e; exact ⟨rfl, hc⟩, fun ⟨e, _⟩ => by rw [e]⟩

/-- A word whose format decodes to an instruction that a check refuses is refused by that check. -/
theorem decode_of_check {n : RegsPerFile} {w : Word} {i : Instr} {r : Reject} (h : decodeFormat w = .ok i)
    (hc : check n i = some r) : decode n w = .error r := by
  simp [decode, h, hc]

/-- A word whose format is refused is refused. -/
theorem decode_of_format_error {n : RegsPerFile} {w : Word} {r : Reject} (h : decodeFormat w = .error r) :
    decode n w = .error r := by
  simp [decode, h]

/-! ### Fields -/

theorem fld_getElem (w : Word) (lo len j : Nat) (hj : j < len) : (fld w lo len)[j] = w.getLsbD (lo + j) := by
  simp [fld]

@[simp] theorem encodeReg_toFin (r : RegIdx) : (encodeReg r).toFin = r := rfl

@[simp] theorem fileOfBit_bit (f : RegFile) : fileOfBit f.bit = f := by cases f <;> rfl

@[simp] theorem unitOfBit_bit (u : DUnit) : unitOfBit u.bit = u := by cases u <;> rfl

/-- The mode field says how it was made (R61). -/
@[simp] theorem decodeMode_encodeMode (u : Update) (s : Sign) (off : Offset) :
    decodeMode (encodeMode u s off) = some (u, s, match off with | .cst _ => false | .reg _ => true) := by
  cases u <;> cases s <;> cases off <;> simp only [encodeMode] <;> decide

/-- The fields of a word of format LS, from the concatenation of R53. -/
theorem fields_LS (c : BitVec 4) (d b f : BitVec 5) (m : BitVec 4) (r y : BitVec 1) (op : BitVec 3) (x : BitVec 2)
    (s p : BitVec 1) :
    let w : Word := c ++ d ++ b ++ f ++ m ++ r ++ y ++ op ++ x ++ s ++ p
    fld w 28 4 = c ∧ fld w 23 5 = d ∧ fld w 18 5 = b ∧ fld w 13 5 = f ∧ fld w 9 4 = m ∧ fld w 8 1 = r ∧ fld w 7 1 = y ∧
      fld w 4 3 = op ∧ fld w 2 2 = x ∧ fld w 1 1 = s ∧ fld w 0 1 = p := by
  refine ⟨?_, ?_, ?_, ?_, ?_, ?_, ?_, ?_, ?_, ?_, ?_⟩ <;> ext j hj <;>
    simp only [fld_getElem, BitVec.getLsbD_append] <;> grind

/-- The fields of a word of format LS15 (R54). -/
theorem fields_LS15 (c : BitVec 4) (d : BitVec 5) (k : BitVec 15) (y : BitVec 1) (op : BitVec 3) (x : BitVec 2)
    (s p : BitVec 1) :
    let w : Word := c ++ d ++ k ++ y ++ op ++ x ++ s ++ p
    fld w 28 4 = c ∧ fld w 23 5 = d ∧ fld w 8 15 = k ∧ fld w 7 1 = y ∧ fld w 4 3 = op ∧ fld w 2 2 = x ∧ fld w 1 1 = s ∧
      fld w 0 1 = p := by
  refine ⟨?_, ?_, ?_, ?_, ?_, ?_, ?_, ?_⟩ <;> ext j hj <;>
    simp only [fld_getElem, BitVec.getLsbD_append] <;> grind

/-- The fields of a word of format DA (R55). -/
theorem fields_DA (c : BitVec 4) (d b f : BitVec 5) (op6 : BitVec 6) (x : BitVec 5) (s p : BitVec 1) :
    let w : Word := c ++ d ++ b ++ f ++ op6 ++ x ++ s ++ p
    fld w 28 4 = c ∧ fld w 23 5 = d ∧ fld w 18 5 = b ∧ fld w 13 5 = f ∧ fld w 7 6 = op6 ∧ fld w 2 5 = x ∧ fld w 1 1 = s ∧
      fld w 0 1 = p := by
  refine ⟨?_, ?_, ?_, ?_, ?_, ?_, ?_, ?_⟩ <;> ext j hj <;>
    simp only [fld_getElem, BitVec.getLsbD_append] <;> grind

/-- The fields of a word of format M (R57). -/
theorem fields_M (c : BitVec 4) (d b f : BitVec 5) (x : BitVec 1) (u v : BitVec 5) (s p : BitVec 1) :
    let w : Word := c ++ d ++ b ++ f ++ x ++ u ++ v ++ s ++ p
    fld w 28 4 = c ∧ fld w 23 5 = d ∧ fld w 18 5 = b ∧ fld w 13 5 = f ∧ fld w 12 1 = x ∧ fld w 7 5 = u ∧ fld w 2 5 = v ∧
      fld w 1 1 = s ∧ fld w 0 1 = p := by
  refine ⟨?_, ?_, ?_, ?_, ?_, ?_, ?_, ?_, ?_⟩ <;> ext j hj <;>
    simp only [fld_getElem, BitVec.getLsbD_append] <;> grind

/-! ### The format of an encoded word -/

/-- A word whose bits 3:2 are `v` with `v[0]` = 1 is no NOP word. -/
theorem not_nop_of_fld22 {w : Word} {v : BitVec 2} (h : fld w 2 2 = v) (hv : v.getLsbD 0 = true) :
    ¬ (fld w 17 15 = 0#15 ∧ fld w 1 12 = 0#12) := by
  rintro ⟨-, e⟩
  have h1 : (fld w 1 12).getLsbD 1 = (fld w 2 2).getLsbD 0 := by simp [fld]
  rw [e, h, hv] at h1
  simp at h1

/-- Bits 3:2 of a word whose bits 6:2 are known. -/
theorem fld22_of_fld25 {w : Word} {v : BitVec 5} (h : fld w 2 5 = v) : fld w 2 2 = v.extractLsb' 0 2 := by
  subst h
  apply BitVec.eq_of_getLsbD_eq
  intro j hj
  simp [fld, BitVec.getLsbD_extractLsb', hj]
  omega

theorem decodeFormat_encodeLS (r : BitVec 1) (op : BitVec 3) (o : LsOp) :
    decodeFormat (encodeLS r op o) = decodeOp r op o := by
  obtain ⟨h1, h2, h3, h4, h5, h6, h7, h8, h9, h10, h11⟩ := fields_LS 0#4 (encodeReg o.data.idx) (encodeReg o.baseR)
    o.offset.bits (encodeMode o.update o.sign o.offset) r o.unit.bit op 0b01#2 o.data.file.bit 0#1
  change fld (encodeLS r op o) _ _ = _ at h1 h2 h3 h4 h5 h6 h7 h8 h9 h10 h11
  generalize encodeLS r op o = w at *
  unfold decodeFormat
  rw [h11, if_neg (by decide), if_neg (not_nop_of_fld22 h9 (by decide)), if_pos h9]
  unfold decodeLS regFld
  rw [h1, h2, h3, h4, h5, h6, h7, h8, h10]
  simp only [ne_eq, not_true_eq_false, if_false, decodeMode_encodeMode, fileOfBit_bit, unitOfBit_bit, encodeReg_toFin]
  congr 1
  obtain ⟨u, b, up, sg, off, d⟩ := o
  cases off <;> rfl

theorem decodeFormat_encodeLS15 (op : BitVec 3) (o : Ls15Op) : decodeFormat (encodeLS15 op o) = decodeOp15 op o := by
  obtain ⟨h1, h2, h3, h4, h5, h6, h7, h8⟩ := fields_LS15 0#4 (encodeReg o.data.idx) o.ucst15 o.base.bit op 0b11#2
    o.data.file.bit 0#1
  change fld (encodeLS15 op o) _ _ = _ at h1 h2 h3 h4 h5 h6 h7 h8
  generalize encodeLS15 op o = w at *
  unfold decodeFormat
  rw [h8, if_neg (by decide), if_neg (not_nop_of_fld22 h6 (by decide)), h6, if_neg (by decide), if_pos rfl]
  unfold decodeLS15 regFld
  rw [h1, h2, h3, h4, h5, h7]
  simp only [ne_eq, not_true_eq_false, if_false, fileOfBit_bit, encodeReg_toFin]
  congr 1
  obtain ⟨b, c, d⟩ := o
  cases b <;> rfl

theorem decodeFormat_encodeDA (op6 : BitVec 6) (u : DUnit) (d s2 : RegIdx) (f : BitVec 5) :
    decodeFormat (encodeDA op6 u d s2 f) = decodeOp6 op6 ⟨u, s2, f.toFin, d⟩ ⟨u, s2, f, d⟩ := by
  obtain ⟨h1, h2, h3, h4, h5, h6, h7, h8⟩ := fields_DA 0#4 (encodeReg d) (encodeReg s2) f op6 0b10000#5 u.bit 0#1
  change fld (encodeDA op6 u d s2 f) _ _ = _ at h1 h2 h3 h4 h5 h6 h7 h8
  generalize encodeDA op6 u d s2 f = w at *
  have hn : ¬ (fld w 17 15 = 0#15 ∧ fld w 1 12 = 0#12) := by
    rintro ⟨-, e⟩
    have h9 : (fld w 1 12).getLsbD 5 = (fld w 2 5).getLsbD 4 := by simp [fld]
    rw [e, h6] at h9
    simp at h9
  unfold decodeFormat
  rw [h8, if_neg (by decide), if_neg hn, fld22_of_fld25 h6, if_neg (by decide), if_neg (by decide), if_pos h6]
  unfold decodeDA regFld
  rw [h1, h2, h3, h4, h5, h7]
  simp only [ne_eq, not_true_eq_false, if_false, unitOfBit_bit, encodeReg_toFin]

theorem decodeFormat_encodeM (o : MOp) : decodeFormat (encodeM o) = .ok (.mpyh o) := by
  obtain ⟨h1, h2, h3, h4, h5, h6, h7, h8, h9⟩ := fields_M 0#4 (encodeReg o.dst) (encodeReg o.src2) (encodeReg o.src1)
    (BitVec.ofBool o.x) 0b00001#5 0b00000#5 (BitVec.ofBool o.s) 0#1
  change fld (encodeM o) _ _ = _ at h1 h2 h3 h4 h5 h6 h7 h8 h9
  generalize encodeM o = w at *
  have hn : ¬ (fld w 17 15 = 0#15 ∧ fld w 1 12 = 0#12) := by
    rintro ⟨-, e⟩
    have h10 : (fld w 1 12).getLsbD 6 = (fld w 7 5).getLsbD 0 := by simp [fld]
    rw [e, h6] at h10
    simp at h10
  unfold decodeFormat
  rw [h9, if_neg (by decide), if_neg hn, fld22_of_fld25 h7, if_neg (by decide), if_neg (by decide), h7,
    if_neg (by decide), if_pos ⟨rfl, h6⟩]
  unfold decodeM regFld
  rw [h1, h2, h3, h4, h5, h8]
  simp only [ne_eq, not_true_eq_false, if_false, encodeReg_toFin]
  obtain ⟨_, _, _, x, s⟩ := o
  cases x <;> cases s <;> rfl

end Sys2Proof
end

