-- ==== Sys2Proof/Laws/Pipeline.lean ====
section
/-! SUPPORT. Packets: they are the program cut into pieces, and no execute packet of a program is longer than a fetch packet
(30_encoding.md R51, R52). -/

namespace Sys2Proof.Machine

theorem flatten_chunks (m : Nat) (ws : List Word) (h : ws.length ≤ fetchPacketInstrs * m) :
    ((List.range m).map fun k => (ws.drop (fetchPacketInstrs * k)).take fetchPacketInstrs).flatten = ws := by
  induction m generalizing ws with
  | zero => simp_all
  | succ m ih =>
    rw [List.range_succ_eq_map, List.map_cons, List.map_map, List.flatten_cons]
    have hd := ih (ws.drop fetchPacketInstrs) (by simp only [List.length_drop]; rw [Nat.mul_succ] at h; omega)
    simp only [Function.comp_def, List.drop_drop] at hd ⊢
    simp only [Nat.mul_succ, Nat.add_comm] at hd ⊢
    rw [hd]
    simp

/-- The fetch packets, joined, are the program. -/
theorem fetchPackets_flatten (ws : List Word) : (fetchPackets ws).flatten = ws :=
  flatten_chunks _ _ (by simp only [fetchPacketInstrs]; omega)

theorem length_fetchPacket_le {ws q : List Word} (h : q ∈ fetchPackets ws) : q.length ≤ fetchPacketInstrs := by
  obtain ⟨k, -, rfl⟩ := List.mem_map.mp h
  exact List.length_take_le _ _

/-- The execute packets of a run, joined, are the run. -/
theorem executePackets_flatten (ws : List Word) : (executePackets ws).flatten = ws := by
  induction ws with
  | nil => rfl
  | cons w ws ih =>
    unfold executePackets
    split
    · split
      · next h => rw [h] at ih; simp [← ih]
      · next h => rw [h] at ih; simp [← ih]
    · simp [ih]

/-- The execute packets of a program, joined, are the program. -/
theorem programPackets_flatten (ws : List Word) : (programPackets ws).flatten = ws := by
  rw [programPackets, List.flatMap_def, List.flatten_flatten]
  simp [Function.comp_def, executePackets_flatten, fetchPackets_flatten]

/-- No execute packet of a program holds more words than a fetch packet (R52). -/
theorem length_programPacket_le {ws p : List Word} (h : p ∈ programPackets ws) : p.length ≤ fetchPacketInstrs := by
  obtain ⟨q, hq, hp⟩ := List.mem_flatMap.mp h
  refine le_trans ?_ (length_fetchPacket_le hq)
  conv_rhs => rw [← executePackets_flatten q]
  exact (List.sublist_flatten_of_mem hp).length_le

end Sys2Proof.Machine
end

