-- ==== Sys2Proof/Laws/Step.lean ====
section
/-! SUPPORT. What a step can do, and the induction over a run. -/

namespace Sys2Proof.Machine

/-- What a step that answers a next state did: it landed the due writes of an unmarked state with a legal AMR, then either
issued nothing or performed the well-formed instruction at `pc`, and counted the cycle. -/
theorem step_next {s s' : State} (h : step s = .next s') :
    Running s ∧ (s.due.map PendingWrite.reg).Nodup ∧
      ((s' = s.landed.idle.tick ∧ (s.fetch = none ∨ s.nopLeft ≠ 0)) ∨
       ∃ w i t, s.fetch = some w ∧ s.nopLeft = 0 ∧ decode s.cfg.regsPerFile w = .ok i ∧
         exec i s.landed = .next t ∧ s' = t.tick) := by
  unfold step at h
  split at h
  · cases h
  · cases h
  · next hf hr =>
    split at h
    · next ha =>
      simp only [runCycle, andThen_eq_next, land_eq_next] at h
      obtain ⟨s1, ⟨hnd, rfl⟩, s2, hi, h2⟩ := h
      cases h2
      refine ⟨⟨hf, hr, ha⟩, hnd, ?_⟩
      unfold issue at hi
      have hfetch : s.landed.fetch = s.fetch := by simp [State.fetch]
      rw [hfetch] at hi
      split at hi
      · next hn => cases hi; exact .inl ⟨rfl, .inl hn⟩
      · next w hw =>
        simp only [State.nopLeft_landed, State.cfg_landed] at hi
        split at hi
        · next hn => cases hi; exact .inl ⟨rfl, .inr hn⟩
        · next hn =>
          cases hd : decode s.cfg.regsPerFile w with
          | error r => rw [hd] at hi; cases hi
          | ok i =>
            rw [hd] at hi
            exact .inr ⟨w, i, s2, hw, not_not.mp hn, hd, hi, rfl⟩
    · cases h

/-- The step of a running state is its cycle (R183). -/
theorem step_of_running {s : State} (h : Running s) : step s = runCycle s := by
  simp [step, h.noFault, h.noRefusal, h.legalAmr]

/-- A step changes, apart from memory and the NOP count, only what an instruction's effect and the landings say. -/
theorem step_frame {s s' : State} (h : step s = .next s') :
    s'.cfg = s.cfg ∧ s'.amr = s.amr ∧ s'.t = s.t + 1 ∧ s'.fault = none ∧ s'.refused = none ∧
    (∀ r, s'.reg r = s.landed.reg r) ∧ ∃ ws, s'.pending = (s.pending.filter fun e => e.landing != s.t) ++ ws ∧
      ∀ e ∈ ws, e.landing = s.t + 1 ∨ e.landing = s.t + 5 := by
  obtain ⟨hr, -, ⟨rfl, -⟩ | ⟨w, i, t, -, -, -, he, rfl⟩⟩ := step_next h
  · exact ⟨by simp, by simp, by simp, by simp [hr.noFault], by simp [hr.noRefusal], fun r => by simp, [], by simp⟩
  · obtain ⟨ws, hE, -⟩ := exec_effect he
    have hs := hE.shape
    have hreg : ∀ r, t.reg r = s.landed.reg r := by
      intro r
      rw [hs]
      exact State.reg_congr rfl rfl r
    refine ⟨?_, ?_, ?_, ?_, ?_, ?_, ws, ?_, ?_⟩
    · rw [State.cfg_tick, hs]; exact State.cfg_landed s
    · rw [State.amr_tick, hs]; exact State.amr_landed s
    · rw [State.t_tick, hs]; simp [issued]
    · rw [State.fault_tick, hs]; simpa [issued] using hr.noFault
    · rw [State.refused_tick, hs]; simpa [issued] using hr.noRefusal
    · intro r; rw [State.reg_tick, hreg]
    · rw [State.pending_tick, hs]; simp [issued]
    · simpa using hE.landing

/-- A property that every step keeps holds at the end of every run. -/
theorem run_induction {P : State → Prop} (hstep : ∀ s s', P s → step s = .next s' → P s') {n : Nat} {s s' : State}
    (h : P s) (hrun : run n s = .next s') : P s' := by
  induction n generalizing s with
  | zero => cases hrun; exact h
  | succ n ih =>
    obtain ⟨s1, h1, h2⟩ := andThen_eq_next.mp hrun
    exact ih (hstep _ _ h h1) h2

/-- A run of n steps takes n cycles. -/
theorem run_t {n : Nat} {s s' : State} (h : run n s = .next s') : s'.t = s.t + n := by
  induction n generalizing s with
  | zero => cases h; rfl
  | succ n ih =>
    obtain ⟨s1, h1, h2⟩ := andThen_eq_next.mp h
    rw [ih h2, (step_frame h1).2.2.1]
    omega

end Sys2Proof.Machine
end

