-- ==== Sys2Proof/Tests/Slice0.lean ====
section
/-! SUPPORT. The model's own tests. Expected words and values are those of spec/95_test_vectors.md (the vector is named) or
worked by hand from the encoding tables of spec/30_encoding.md. Witnesses meet the hypotheses of the obligations. -/

namespace Sys2Proof.Tests

open Sys2Proof.Machine

/-! ### Helpers -/

/-- Register i of file A. -/
def ra (i : RegIdx) : Reg := ⟨.A, i⟩

/-- Register i of file B. -/
def rb (i : RegIdx) : Reg := ⟨.B, i⟩

/-- The reset state with AMR, some registers and some bytes of memory from `a` on. -/
def start (amr : Word) (regs : List (Reg × Word)) (a : Word) (bytes : List Byte) : State :=
  { State.reset with
    amr := amr
    mem := Memory.writeAll [] ((List.range bytes.length).map fun k => a + BitVec.ofNat 32 k) bytes }.setRegs regs

/-- The state with another `alloc`. -/
def owning (s : State) (g : List Region) : State := { s with cfg := { s.cfg with alloc := g } }

/-- The state with another byte order. -/
def bigEndian (s : State) : State := { s with cfg := { s.cfg with endian := .big } }

/-- The writes in flight after one step that runs the word `w`. -/
def issues (s : State) (w : Nat) : Option (List PendingWrite) :=
  match step (s.withFetchWord 32 w) with
  | .next t => some t.pending
  | _ => none

/-- The bytes from `a` on after one step that runs the word `w`. -/
def stores (s : State) (w : Nat) (a n : Nat) : Option (List (Option Byte)) :=
  match step (s.withFetchWord 32 w) with
  | .next t => some ((List.range n).map fun k => t.mem.read (a + k))
  | _ => none

/-- The fault of one step that runs the word `w`. -/
def faultOf (s : State) (w : Nat) : Option Fault :=
  match step (s.withFetchWord 32 w) with
  | .fault f => some f
  | _ => none

/-- The refusal of one step that runs the word `w`. -/
def refusalOf (s : State) (w : Nat) : Option Refusal :=
  match step (s.withFetchWord 32 w) with
  | .refused r => some r
  | _ => none

/-- Memory and registers of V3. -/
def v3 : State := start 0 [(ra 4, 0x100)] 0x100 [0x7F, 0xFF, 0x81, 0x80, 0x04, 0x03, 0x02, 0x01]

/-- Memory and registers of V4. -/
def v4 (amr a4 : Word) : State :=
  start amr [(ra 1, 0xAABBCCDD), (ra 2, 0x11111111), (ra 3, 0x22222222), (ra 4, a4)] 0x100
    [0x7F, 0xFF, 0x81, 0x80, 0x04, 0x03, 0x02, 0x01]

/-- Registers and memory of V5. -/
def v5 : State := start 0 [(rb 14, 0x8000), (rb 15, 0x8000), (ra 3, 0xAABBCCDD)] 0x8060
    [0x60, 0x61, 0x62, 0x63, 0xE4, 0xE5]

/-- Registers of V6. -/
def v6 (amr : Word) : State := start amr [(ra 4, 0x100), (ra 1, 0x13)] 0 []

/-- An operand of format LS on `.D1`. -/
def opA (base : RegIdx) (u : Update) (sg : Sign) (off : Offset) (data : RegIdx) : LsOp := ⟨.D1, base, u, sg, off, ra data⟩

/-! ### Well-formedness -/

theorem test_wf_ldw : WellFormed .r16 (.ldw (opA 4 .pre .add (.cst 9) 1)) := by decide

theorem test_wf_base_beyond_file : ¬ WellFormed .r16 (.ldw (opA 16 .keep .add (.cst 1) 1)) := by decide

theorem test_wf_offset_beyond_file : ¬ WellFormed .r16 (.stw (opA 4 .keep .add (.reg 16) 1)) := by decide

theorem test_wf_data_beyond_file : ¬ WellFormed .r16 (.ldw15 ⟨.B14, 1, ra 16⟩) := by decide

theorem test_wf_da_beyond_file : ¬ WellFormed .r16 (.addabR ⟨.D1, 4, 16, 1⟩) ∧ ¬ WellFormed .r16 (.addabC ⟨.D1, 4, 1, 16⟩) := by
  decide

theorem test_wf_odd_pair : ¬ WellFormed .r32 (.lddw (opA 4 .keep .add (.cst 0) 3)) ∧
    ¬ WellFormed .r32 (.stdw (opA 4 .keep .add (.cst 0) 3)) := by decide

theorem test_wf_load_into_modified_base : ¬ WellFormed .r32 (.ldw (opA 4 .post .add (.cst 1) 4)) ∧
    ¬ WellFormed .r32 (.lddw (opA 5 .pre .add (.cst 1) 4)) := by decide

theorem test_wf_store_of_modified_base : WellFormed .r32 (.stw (opA 4 .post .add (.cst 1) 4)) := by decide

theorem test_wf_nop_count : WellFormed .r32 (.nop 8) ∧ ¬ WellFormed .r32 (.nop 9) := by decide

/-! ### Decoding: one word for each constructor -/

/-- V3. -/
theorem test_decode_ldhu : decodeTableWord 32 0x00902204 = some (.ldhu (opA 4 .keep .add (.cst 1) 1)) := by decide

/-- V3. -/
theorem test_decode_ldbu : decodeTableWord 32 0x00906214 = some (.ldbu (opA 4 .keep .add (.cst 3) 1)) := by decide

/-- V3. -/
theorem test_decode_ldb : decodeTableWord 32 0x00904224 = some (.ldb (opA 4 .keep .add (.cst 2) 1)) := by decide

/-- V4. -/
theorem test_decode_stb : decodeTableWord 32 0x00902234 = some (.stb (opA 4 .keep .add (.cst 1) 1)) := by decide

/-- V3. -/
theorem test_decode_ldh : decodeTableWord 32 0x00904244 = some (.ldh (opA 4 .keep .add (.cst 2) 1)) := by decide

/-- V4. -/
theorem test_decode_sth : decodeTableWord 32 0x00902254 = some (.sth (opA 4 .keep .add (.cst 1) 1)) := by decide

/-- S8. -/
theorem test_decode_ldw : decodeTableWord 32 0x04119A64 = some (.ldw (opA 4 .pre .add (.reg 12) 8)) := by decide

/-- V4. -/
theorem test_decode_stw : decodeTableWord 32 0x01BC54F6 = some (.stw ⟨.D2, 15, .post, .sub, .cst 2, rb 3⟩) := by decide

/-- P3. -/
theorem test_decode_ldnw : decodeTableWord 32 0x009433B6 = some (.ldnw ⟨.D2, 5, .pre, .add, .cst 1, rb 1⟩) := by decide

/-- V4. -/
theorem test_decode_stdw : decodeTableWord 32 0x01100344 = some (.stdw (opA 4 .keep .add (.cst 0) 2)) := by decide

/-- V4. -/
theorem test_decode_stnw : decodeTableWord 32 0x00900354 = some (.stnw (opA 4 .keep .add (.cst 0) 1)) := by decide

/-- V3. -/
theorem test_decode_lddw : decodeTableWord 32 0x01100364 = some (.lddw (opA 4 .keep .add (.cst 0) 2)) := by decide

/-- R54 with op 000. -/
theorem test_decode_ldhu15 : decodeTableWord 32 0x0180640C = some (.ldhu15 ⟨.B14, 100, ra 3⟩) := by decide

/-- R54 with op 001. -/
theorem test_decode_ldbu15 : decodeTableWord 32 0x0180641C = some (.ldbu15 ⟨.B14, 100, ra 3⟩) := by decide

/-- V5. -/
theorem test_decode_ldb15 : decodeTableWord 32 0x01FFFFAE = some (.ldb15 ⟨.B15, 0x7FFF, rb 3⟩) := by decide

/-- R54 with op 011. -/
theorem test_decode_stb15 : decodeTableWord 32 0x0180643C = some (.stb15 ⟨.B14, 100, ra 3⟩) := by decide

/-- V5. -/
theorem test_decode_ldh15 : decodeTableWord 32 0x0180644C = some (.ldh15 ⟨.B14, 100, ra 3⟩) := by decide

/-- R54 with op 101. -/
theorem test_decode_sth15 : decodeTableWord 32 0x0180645C = some (.sth15 ⟨.B14, 100, ra 3⟩) := by decide

/-- V5. -/
theorem test_decode_ldw15 : decodeTableWord 32 0x01FFFFEE = some (.ldw15 ⟨.B15, 0x7FFF, rb 3⟩) := by decide

/-- V5. -/
theorem test_decode_stw15 : decodeTableWord 32 0x0180647C = some (.stw15 ⟨.B14, 100, ra 3⟩) := by decide

/-- V6. -/
theorem test_decode_addabR : decodeTableWord 32 0x00903840 = some (.addabR ⟨.D1, 4, 1, 1⟩) := by decide

/-- V6. -/
theorem test_decode_addabC : decodeTableWord 32 0x02105940 = some (.addabC ⟨.D1, 4, 2, 4⟩) := by decide

/-- V6. -/
theorem test_decode_addahR : decodeTableWord 32 0x00903A40 = some (.addahR ⟨.D1, 4, 1, 1⟩) := by decide

/-- V6. -/
theorem test_decode_addahC : decodeTableWord 32 0x02105B40 = some (.addahC ⟨.D1, 4, 2, 4⟩) := by decide

/-- V6. -/
theorem test_decode_addawR : decodeTableWord 32 0x00903C40 = some (.addawR ⟨.D1, 4, 1, 1⟩) := by decide

/-- V6. -/
theorem test_decode_addawC : decodeTableWord 32 0x02105D40 = some (.addawC ⟨.D1, 4, 2, 4⟩) := by decide

/-- V6. -/
theorem test_decode_addadR : decodeTableWord 32 0x00903E40 = some (.addadR ⟨.D1, 4, 1, 1⟩) := by decide

/-- V6. -/
theorem test_decode_addadC : decodeTableWord 32 0x02105EC0 = some (.addadC ⟨.D1, 4, 2, 4⟩) := by decide

/-- V6. -/
theorem test_decode_subabR : decodeTableWord 32 0x009038C0 = some (.subabR ⟨.D1, 4, 1, 1⟩) := by decide

/-- V6. -/
theorem test_decode_subabC : decodeTableWord 32 0x021059C0 = some (.subabC ⟨.D1, 4, 2, 4⟩) := by decide

/-- V6. -/
theorem test_decode_subahR : decodeTableWord 32 0x00903AC0 = some (.subahR ⟨.D1, 4, 1, 1⟩) := by decide

/-- V6. -/
theorem test_decode_subahC : decodeTableWord 32 0x02105BC0 = some (.subahC ⟨.D1, 4, 2, 4⟩) := by decide

/-- V6. -/
theorem test_decode_subawR : decodeTableWord 32 0x00903CC0 = some (.subawR ⟨.D1, 4, 1, 1⟩) := by decide

/-- V6. -/
theorem test_decode_subawC : decodeTableWord 32 0x02105DC0 = some (.subawC ⟨.D1, 4, 2, 4⟩) := by decide

/-- V7. -/
theorem test_decode_nop : decodeTableWord 32 0x00010000 = some (.nop 8) := by decide

/-- V10. -/
theorem test_decode_mpyh : decodeTableWord 32 0x01882080 = some (.mpyh ⟨3, 2, 1, false, false⟩) := by decide

/-- V10. -/
theorem test_decode_ldndw : decodeTableWord 32 0x01102324 = some (.ldndw (opA 4 .keep .add (.cst 1) 2)) := by decide

/-- V10. -/
theorem test_decode_stndw : decodeTableWord 32 0x01102374 = some (.stndw (opA 4 .keep .add (.cst 1) 2)) := by decide

/-- R55 with s = 1: `ADDAB .D2 B4,B1,B1` is the word 00903840h of V6 with bit 1 set. -/
theorem test_decode_d2 : decodeTableWord 32 0x00903842 = some (.addabR ⟨.D2, 4, 1, 1⟩) := by decide

/-! ### Decoding: the refusals of V10, by name -/

theorem test_refuses_parallel : refusalOf v3 0x00913265 = some (.word .parallelPacket) := by decide

theorem test_refuses_conditional_creg : refusalOf v3 0x20913264 = some (.word .conditional) := by decide

theorem test_refuses_conditional_z : refusalOf v3 0x10913264 = some (.word .conditional) := by decide

theorem test_refuses_reserved_mode : refusalOf v3 0x00912464 = some (.word .reservedMode) := by decide

theorem test_refuses_reserved_op : refusalOf v3 0x00900304 = some (.word .reservedEncoding) := by decide

theorem test_refuses_odd_pair : refusalOf v3 0x01900364 = some (.word .oddPairRegister) := by decide

theorem test_refuses_modified_base : refusalOf v3 0x02103664 = some (.word .dstIsModifiedBase) := by decide

theorem test_refuses_no_subad : refusalOf v3 0x00903F40 = some (.word .reservedEncoding) := by decide

theorem test_refuses_nop_count : refusalOf v3 0x00012000 = some (.word .reservedEncoding) := by decide

theorem test_refuses_ls15_conditional : refusalOf v3 0xFFFFFFFE = some (.word .conditional) := by decide

theorem test_refuses_unknown_word : refusalOf v3 0x00000010 = some (.word (.notInScope 0x00000010)) := by decide

theorem test_refuses_mpyh : refusalOf v3 0x01882080 = some (.noSemanticsMpyh) := by decide

theorem test_refuses_ldndw : refusalOf v3 0x01102324 = some (.notInScope .ldndw) := by decide

theorem test_refuses_stndw : refusalOf v3 0x01102374 = some (.notInScope .stndw) := by decide

theorem test_refuses_no_such_register :
    refusalOf { v3 with cfg := { v3.cfg with regsPerFile := .r16 } } 0x08102264 = some (.word .noSuchRegister) := by decide

theorem test_refuses_reserved_amr : refusalOf { v3 with amr := 3 } 0 = some .reservedAMR ∧
    refusalOf { v3 with amr := 0x04000000 } 0 = some .reservedAMR := by decide

/-! ### Loads: V3, S1, S6, S8 -/

/-- V3. -/
theorem test_ldb :
    issues v3 0x00904224 =
      some [⟨5, ra 1, 0xFFFFFF81⟩] := by decide

/-- V3. -/
theorem test_ldbu :
    issues v3 0x00906214 =
      some [⟨5, ra 1, 0x00000080⟩] := by decide

/-- V3. -/
theorem test_ldh :
    issues v3 0x00902244 =
      some [⟨5, ra 1, 0xFFFF8081⟩] := by decide

/-- V3. -/
theorem test_ldhu :
    issues v3 0x00900204 =
      some [⟨5, ra 1, 0x0000FF7F⟩] := by decide

/-- V3. -/
theorem test_lddw :
    issues v3 0x01100364 =
      some [⟨5, ra 2, 0x8081FF7F⟩, ⟨5, ra 3, 0x01020304⟩] := by decide

/-- V3, big-endian. -/
theorem test_lddw_big_endian :
    issues (bigEndian v3) 0x01100364 =
      some [⟨5, ra 2, 0x04030201⟩, ⟨5, ra 3, 0x7FFF8180⟩] := by decide

/-- P3, t = 0. -/
theorem test_ldnw_wraps :
    issues (start 0x00640801 [(rb 5, 0x2A)] 0x20 [0x61, 0x62, 0x63, 0x64, 0x65, 0x66, 0x67, 0x68, 0x69, 0x6A, 0x6B, 0x6C,
      0x6D, 0x6E, 0x6F, 0x70]) 0x009433B6 =
      some [⟨1, rb 5, 0x2E⟩, ⟨5, rb 1, 0x6261706F⟩] := by decide

/-- S1. -/
theorem test_ldw_circular_preincrement :
    issues (start 0x00040001 [(ra 4, 0x100)] 0x104 [0x44, 0x33, 0x22, 0x11]) 0x00913264 =
      some [⟨1, ra 4, 0x104⟩, ⟨5, ra 1, 0x11223344⟩] := by decide

/-- S8. -/
theorem test_ldw_register_offset :
    issues (start 0 [(ra 4, 0x40B0), (ra 12, 6)] 0x40C8 [0xA8, 0xBA, 0xCB, 0xDC]) 0x04119A64 =
      some [⟨1, ra 4, 0x40C8⟩, ⟨5, ra 8, 0xDCCBBAA8⟩] := by decide

/-- V5: EA = 8064h. -/
theorem test_ldb15 :
    issues v5 0x0180642C =
      some [⟨5, ra 3, 0xFFFFFFE4⟩] := by decide

/-- V5 with LDBU: EA = 8064h. -/
theorem test_ldbu15 :
    issues v5 0x0180641C =
      some [⟨5, ra 3, 0x000000E4⟩] := by decide

/-- V5: EA = 80C8h. -/
theorem test_ldh15 :
    issues (start 0 [(rb 14, 0x8000)] 0x80C8 [0x81, 0x80]) 0x0180644C =
      some [⟨5, ra 3, 0xFFFF8081⟩] := by decide

/-- V5 with LDHU: EA = 80C8h. -/
theorem test_ldhu15 :
    issues (start 0 [(rb 14, 0x8000)] 0x80C8 [0x81, 0x80]) 0x0180640C =
      some [⟨5, ra 3, 0x00008081⟩] := by decide

/-- V5: EA = 27FFCh. -/
theorem test_ldw15 :
    issues (start 0 [(rb 15, 0x8000)] 0x27FFC [1, 2, 3, 4]) 0x01FFFFEE =
      some [⟨5, rb 3, 0x04030201⟩] := by decide

/-! ### Stores: V4, V5 -/

/-- V4. -/
theorem test_stb : stores (v4 0 0x104) 0x00902234 0x104 4 =
    some [some 0x04, some 0xDD, some 0x02, some 0x01] := by decide

/-- V4. -/
theorem test_sth : stores (v4 0 0x104) 0x00902254 0x104 4 =
    some [some 0x04, some 0x03, some 0xDD, some 0xCC] := by decide

/-- R34, big-endian, of V4. -/
theorem test_stw_big_endian : stores (bigEndian (v4 0 0x100)) 0x00903674 0x100 5 =
    some [some 0xAA, some 0xBB, some 0xCC, some 0xDD, some 0x04] := by decide

/-- V4. -/
theorem test_stdw : stores (v4 0 0x100) 0x01100344 0x100 8 =
    some [some 0x11, some 0x11, some 0x11, some 0x11, some 0x22, some 0x22, some 0x22, some 0x22] := by decide

/-- V4 with A1 = AABBCCDDh: two bytes at the end of the block. -/
theorem test_stnw : stores (v4 0x00040001 0x11E) 0x00900354 0x11E 3 =
    some [some 0xDD, some 0xCC, none] := by decide

/-- V4 with A1 = AABBCCDDh: two bytes at its start. -/
theorem test_stnw_wraps : stores (v4 0x00040001 0x11E) 0x00900354 0x100 3 =
    some [some 0xBB, some 0xAA, some 0x81] := by decide

/-- V5 with STB: EA = 8064h. -/
theorem test_stb15 : stores v5 0x0180643C 0x8064 2 =
    some [some 0xDD, some 0xE5] := by decide

/-- V5 with STH: EA = 80C8h. -/
theorem test_sth15 : stores v5 0x0180645C 0x80C8 3 =
    some [some 0xDD, some 0xCC, none] := by decide

/-- V5: EA = 8190h. -/
theorem test_stw15 : stores v5 0x0180647C 0x8190 4 =
    some [some 0xDD, some 0xCC, some 0xBB, some 0xAA] := by decide

/-- V4. -/
theorem test_stw_postdecrement :
    issues (start 0 [(rb 15, 0x2000), (rb 3, 0xCAFEF00D)] 0 []) 0x01BC54F6 =
      some [⟨1, rb 15, 0x1FF8⟩] := by decide

/-! ### ADDA and SUBA: V6, register forms in the three runs, constant forms `A4,2,A4` with N = 4 -/

theorem test_addabR : issues (v6 0) 0x00903840 = some [⟨1, ra 1, 0x113⟩] ∧ issues (v6 0x00040001) 0x00903840 = some [⟨1, ra 1, 0x113⟩] ∧
    issues (v6 0x00030001) 0x00903840 = some [⟨1, ra 1, 0x103⟩] := by decide

theorem test_addabC : issues (v6 0x00040001) 0x02105940 = some [⟨1, ra 4, 0x102⟩] := by decide

theorem test_addahR : issues (v6 0) 0x00903A40 = some [⟨1, ra 1, 0x126⟩] ∧ issues (v6 0x00040001) 0x00903A40 = some [⟨1, ra 1, 0x106⟩] ∧
    issues (v6 0x00030001) 0x00903A40 = some [⟨1, ra 1, 0x106⟩] := by decide

theorem test_addahC : issues (v6 0x00040001) 0x02105B40 = some [⟨1, ra 4, 0x104⟩] := by decide

theorem test_addawR : issues (v6 0) 0x00903C40 = some [⟨1, ra 1, 0x14C⟩] ∧ issues (v6 0x00040001) 0x00903C40 = some [⟨1, ra 1, 0x10C⟩] ∧
    issues (v6 0x00030001) 0x00903C40 = some [⟨1, ra 1, 0x10C⟩] := by decide

theorem test_addawC : issues (v6 0x00040001) 0x02105D40 = some [⟨1, ra 4, 0x108⟩] := by decide

theorem test_addadR : issues (v6 0) 0x00903E40 = some [⟨1, ra 1, 0x198⟩] ∧ issues (v6 0x00040001) 0x00903E40 = some [⟨1, ra 1, 0x118⟩] ∧
    issues (v6 0x00030001) 0x00903E40 = some [⟨1, ra 1, 0x108⟩] := by decide

theorem test_addadC : issues (v6 0x00040001) 0x02105EC0 = some [⟨1, ra 4, 0x110⟩] := by decide

theorem test_subabR : issues (v6 0) 0x009038C0 = some [⟨1, ra 1, 0xED⟩] ∧ issues (v6 0x00040001) 0x009038C0 = some [⟨1, ra 1, 0x10D⟩] ∧
    issues (v6 0x00030001) 0x009038C0 = some [⟨1, ra 1, 0x10D⟩] := by decide

theorem test_subabC : issues (v6 0x00040001) 0x021059C0 = some [⟨1, ra 4, 0x11E⟩] := by decide

theorem test_subahR : issues (v6 0) 0x00903AC0 = some [⟨1, ra 1, 0xDA⟩] ∧ issues (v6 0x00040001) 0x00903AC0 = some [⟨1, ra 1, 0x11A⟩] ∧
    issues (v6 0x00030001) 0x00903AC0 = some [⟨1, ra 1, 0x10A⟩] := by decide

theorem test_subahC : issues (v6 0x00040001) 0x02105BC0 = some [⟨1, ra 4, 0x11C⟩] := by decide

theorem test_subawR : issues (v6 0) 0x00903CC0 = some [⟨1, ra 1, 0xB4⟩] ∧ issues (v6 0x00040001) 0x00903CC0 = some [⟨1, ra 1, 0x114⟩] ∧
    issues (v6 0x00030001) 0x00903CC0 = some [⟨1, ra 1, 0x104⟩] := by decide

theorem test_subawC : issues (v6 0x00040001) 0x02105DC0 = some [⟨1, ra 4, 0x118⟩] := by decide

/-! ### NOP: V7 -/

theorem test_nop_occupies : (match step (v3.withFetchWord 32 0x00006000) with
    | .next t => decide (t.nopLeft = 3 ∧ t.pc = 1 ∧ t.t = 1 ∧ t.pending = [])
    | _ => false) = true := by decide

/-! ### Faults: V9 and P4 -/

theorem test_misaligned : faultOf (owning (start 0 [(ra 4, 0x102)] 0x100 [1, 0, 0, 0, 2, 0, 0, 0]) [⟨0x100, 8⟩]) 0x00902264 =
    some (.misaligned 0x106 4) := by decide

theorem test_unallocated : faultOf (owning (start 0 [(ra 4, 0x104)] 0x100 [1, 0, 0, 0, 2, 0, 0, 0]) [⟨0x100, 8⟩]) 0x00902264 =
    some (.unallocatedAccess 0x108) := by decide

theorem test_short_block : faultOf (start 1 [(ra 4, 0x100)] 0x100 [1, 0, 0, 0]) 0x00902264 =
    some (.blockSmallerThanDatum 0 4) := by decide

theorem test_whole_block_offset : issues (start 0x00010001 [(ra 4, 0x100)] 0x100 [1, 0, 0, 0]) 0x00902264 =
    some [⟨5, ra 1, 1⟩] := by decide

theorem test_unwritten : faultOf (owning (start 0 [(ra 4, 0x100)] 0x100 [1]) [⟨0x100, 4⟩]) 0x00900264 =
    some (.unwrittenMemory 0x101) := by decide

/-- P4, t = 5. -/
theorem test_write_conflict : faultOf { v3 with t := 5, pending := [⟨5, ra 1, 5⟩, ⟨5, ra 1, 0x101⟩] } 0 =
    some (.writeConflict (ra 1)) := by decide

/-- V8, t = 5: the write due now is in the register that the instruction reads. -/
theorem test_lands_before_issue :
    issues { v3 with t := 5, pending := [⟨5, ra 1, 5⟩] } 0x01903840 = some [⟨6, ra 3, 0x105⟩] := by decide

/-- V8, t = 1: an instruction in a delay slot reads the old value. -/
theorem test_delay_slot_reads_old :
    issues { v3.setReg (ra 1) 0xAAAA with t := 1, pending := [⟨5, ra 1, 5⟩] } 0x01103840 =
      some [⟨5, ra 1, 5⟩, ⟨2, ra 2, 0xABAA⟩] := by decide

/-- R171: at the end of `prog` only the clock goes on. -/
theorem test_end_of_program : (match step v3 with
    | .next t => decide (t = { v3 with t := 1 })
    | _ => false) = true := by decide

/-! ### AMR, launch, assembler -/

/-- V11. -/
theorem test_amr_two_blocks : blk 0x00640801 (rb 5) = .ok (some 3) ∧ blk 0x00640801 (ra 4) = .ok (some 4) ∧
    blk 0x00640801 (ra 5) = .ok none ∧ blk 0x03E00002 (ra 4) = .ok (some 31) := ⟨rfl, rfl, rfl, rfl⟩

/-- V1. -/
theorem test_circ : circ 0x100 0x24 .add (some 4) = 0x104 ∧ circ 0x100 0x24 .sub (some 4) = 0x11C ∧
    circ 0xFFFFFFFC 8 .add (some 4) = 0xFFFFFFE4 ∧ circ 0x100 0x13 .add (some 0) = 0x101 ∧
    circ 4 8 .sub none = 0xFFFFFFFC ∧ circ 0x80000010 0x80000000 .add (some 4) = 0x80000010 := by decide

/-- V10. -/
theorem test_launch_reserved_amr : (match launch ⟨Config.default, 3, [], []⟩ with
    | .refused r => decide (r = .reservedAMR)
    | _ => false) = true := by decide

/-- S9: `*++A4(8)` of LDW is `*++A4[2]`. -/
theorem test_asm_byte_offset :
    (AsmAddr.mk .preInc (ra 4) (.bytes 8)).toLs .word .D1 (ra 8) = some (opA 4 .pre .add (.cst 2) 8) := by decide

/-- R69: `*+B15[7FFFh]` has a form with a 15-bit constant; `*++B15[1]` has none. -/
theorem test_asm_fifteen : (AsmAddr.mk .plus (rb 15) (.units 0x7FFF)).toLs15 .word (rb 3) = some ⟨.B15, 0x7FFF, rb 3⟩ ∧
    (AsmAddr.mk .preInc (rb 15) (.units 1)).toLs15 .word (rb 3) = none ∧
    (AsmInstr.load .LDW .D2 ⟨.plain, rb 15, .units 0x7FFF⟩ (rb 3)).assemble = some (.ldw15 ⟨.B15, 0x7FFF, rb 3⟩) := by decide

/-- S9, V4, V5, P2, V7: written lines and their words. -/
theorem test_assemble :
    (AsmInstr.load .LDW .D1 ⟨.preInc, ra 4, .bytes 8⟩ (ra 8)).assemble.map encode = some 0x04105264 ∧
    (AsmInstr.store .STW .D2 (rb 3) ⟨.postDec, rb 15, .units 2⟩).assemble.map encode = some 0x01BC54F6 ∧
    (AsmInstr.load .LDW .D2 ⟨.plus, rb 14, .units 100⟩ (ra 3)).assemble.map encode = some 0x0180646C ∧
    (AsmInstr.addr .ADDAW .D1 (ra 5) (.cst 1) (ra 6)).assemble.map encode = some 0x03143D40 ∧
    (AsmInstr.nop none).assemble.map encode = some 0 ∧
    (AsmInstr.nop (some 4)).assemble.map encode = some 0x00006000 := by decide

/-- R115: `LDW .D1 *+A4[B5],A1` is ill-formed. -/
theorem test_assemble_refuses :
    (AsmInstr.load .LDW .D1 ⟨.plus, ra 4, .reg (rb 5)⟩ (ra 1)).assemble = none := by decide

/-- P5: two execute packets of one and of two instructions. -/
theorem test_execute_packets :
    executePackets [0x00903664, 0x00903665, 0] = [[0x00903664], [0x00903665, 0]] := by decide

/-- R51, R52: nine words are two fetch packets; the last word of the first is not joined with the second (log 26). -/
theorem test_fetch_packets : (fetchPackets (List.replicate 9 0)).map List.length = [8, 1] ∧
    (programPackets (List.replicate 9 1)).map List.length = [8, 1] := by decide

/-! ### Witnesses: concrete states and operands that meet the hypotheses of the obligations -/

/-- Bytes 1, 2, 3, … -/
def seq (k : Nat) : Byte := BitVec.ofNat 8 (k + 1)

/-- A state with bytes 1 to 32 at 100h to 11Fh and 1 to 8 at 8000h, the whole space allocated. -/
def wit (amr : Word) : State :=
  let s := start amr [(ra 1, 0xAABBCCDD), (ra 2, 1), (ra 3, 2), (ra 4, 0x100), (ra 5, 2), (rb 14, 0x8000), (rb 15, 0x8000)] 0x100
    ((List.range 32).map seq)
  { s with mem := s.mem.writeAll ((List.range 8).map fun k => 0x8000 + BitVec.ofNat 32 k) ((List.range 8).map seq) }

/-- A load or store of A1 (of the pair A3:A2 where a pair is meant) at `*A4`, base not modified. -/
def atA4 (data : RegIdx) : LsOp := opA 4 .keep .add (.cst 0) data

/-- `*+B14[0]`, data A1. -/
def atB14 : Ls15Op := ⟨.B14, 0, ra 1⟩

theorem witness_DecodeOfEncode : WellFormed .r16 (.lddw (opA 4 .pre .add (.cst 31) 2)) ∧
    WellFormed .r32 (.stw (opA 31 .post .sub (.reg 31) 31)) ∧ WellFormed .r16 (.nop 8) := by decide

theorem witness_EncodeOfDecode : decode .r32 0x00913264 = .ok (.ldw (opA 4 .pre .add (.cst 9) 1)) := rfl

theorem witness_ParallelWordsRefused : (0x00913265 : Word).getLsbD 0 = true := by decide

theorem witness_ConditionalWordsRefused :
    (let w : Word := 0x20913264; w.getLsbD 0 = false ∧ fld w 2 2 = 0b01#2 ∧ fld w 29 3 ≠ 0#3) ∧
    (let w : Word := 0x10913264; w.getLsbD 0 = false ∧ fld w 2 2 = 0b01#2 ∧ fld w 28 1 ≠ 0#1) ∧
    (let w : Word := 0xFFFFFFFE; w.getLsbD 0 = false ∧ fld w 2 2 = 0b11#2 ∧ fld w 29 3 ≠ 0#3) ∧
    (let w : Word := 0x20903A40; w.getLsbD 0 = false ∧ fld w 2 5 = 0b10000#5 ∧ fld w 29 3 ≠ 0#3) ∧
    (let w : Word := 0x11882080; w.getLsbD 0 = false ∧ (fld w 2 5 = 0b00000#5 ∧ fld w 7 5 = 0b00001#5) ∧
      fld w 28 1 ≠ 0#1) := by decide

theorem witness_ReservedModesRefused :
    ∀ w ∈ [0x00912464#32, 0x00912664#32, 0x0090AC64#32, 0x0090AE64#32], w.getLsbD 0 = false ∧ fld w 2 2 = 0b01#2 ∧
      fld w 28 4 = 0#4 ∧ fld w 9 4 ∈ [0b0010#4, 0b0011#4, 0b0110#4, 0b0111#4] := by
  intro w hw
  simp only [List.mem_cons, List.not_mem_nil, or_false] at hw
  rcases hw with rfl | rfl | rfl | rfl <;> decide

theorem witness_RegistersBeyondFileRefused :
    (decode .r32 0x00913264 = .ok (.ldw (opA 4 .pre .add (.cst 9) 1)) ∧
      WellFormed .r16 (.ldw (opA 4 .pre .add (.cst 9) 1))) ∧
    (decode .r32 0x08102264 = .ok (.ldw (opA 4 .keep .add (.cst 1) 16)) ∧
      ¬ WellFormed .r16 (.ldw (opA 4 .keep .add (.cst 1) 16)) ∧ 16 ≤ (16 : RegIdx).val) ∧
    (decode .r32 0x00C02264 = .ok (.ldw (opA 16 .keep .add (.cst 1) 1)) ∧ 16 ≤ (16 : RegIdx).val) ∧
    decode .r32 0x00920A64 = .ok (.ldw (opA 4 .keep .add (.reg 16) 1)) := by
  refine ⟨⟨rfl, by decide⟩, ⟨rfl, by decide, by decide⟩, ⟨rfl, by decide⟩, rfl⟩

theorem witness_OddPairRefused : ∀ n ∈ [RegsPerFile.r16, .r32], ∀ w ∈ [0x01900364#32, 0x01900344#32, 0x07BDEB64#32],
    w.getLsbD 0 = false ∧ fld w 28 4 = 0#4 ∧ fld w 2 2 = 0b01#2 ∧ (decodeMode (fld w 9 4)).isSome = true ∧
    fld w 8 1 = 1#1 ∧ (fld w 4 3 = 0b110#3 ∨ fld w 4 3 = 0b100#3) ∧ (regFld w 23).val < n.count ∧
    (regFld w 18).val < n.count ∧ ((fld w 9 4).getLsbD 2 = true → (regFld w 13).val < n.count) ∧
    w.getLsbD 23 = true := by
  intro n hn w hw
  simp only [List.mem_cons, List.not_mem_nil, or_false] at hn hw
  rcases hn with rfl | rfl <;> rcases hw with rfl | rfl | rfl <;> decide

theorem witness_LoadIntoModifiedBaseRefused :
    (let o := opA 4 .post .add (.cst 1) 4; regsExist .r16 o.regIdx = true ∧ o.data = o.base ∧ o.update ≠ .keep) ∧
    (let o := opA 4 .keep .add (.cst 1) 4; regsExist .r16 o.regIdx = true ∧ o.data = o.base ∧ o.update = .keep ∧
      o.data.idx.val % 2 = 0) ∧
    (let o := opA 5 .pre .add (.cst 1) 4; regsExist .r16 o.regIdx = true ∧ o.data.idx.val % 2 = 0 ∧
      o.data.pairOdd = o.base ∧ o.update ≠ .keep) := by decide

theorem witness_ReservedEncodingsRefused :
    (∀ w ∈ [0x00900304#32, 0x00900314#32], w.getLsbD 0 = false ∧ fld w 28 4 = 0#4 ∧ fld w 2 2 = 0b01#2 ∧
      (decodeMode (fld w 9 4)).isSome = true ∧ fld w 8 1 = 1#1 ∧ (fld w 4 3 = 0b000#3 ∨ fld w 4 3 = 0b001#3)) ∧
    8 < (9 : BitVec 4).toNat ∧
    (∀ w ∈ [0x009037C0#32, 0x00903F40#32, 0x00903FC0#32], w.getLsbD 0 = false ∧ fld w 28 4 = 0#4 ∧
      fld w 2 5 = 0b10000#5 ∧ ((fld w 7 6).toNat < 48 ∨ fld w 7 6 = 62#6 ∨ fld w 7 6 = 63#6)) := by
  refine ⟨fun w hw => ?_, by decide, fun w hw => ?_⟩ <;>
    simp only [List.mem_cons, List.not_mem_nil, or_false] at hw
  · rcases hw with rfl | rfl <;> decide
  · rcases hw with rfl | rfl | rfl <;> decide

theorem witness_UnrecognisedWordsRefused : let w : Word := 0x00000010
    w.getLsbD 0 = false ∧ ¬ (fld w 17 15 = 0#15 ∧ fld w 1 12 = 0#12) ∧ fld w 2 2 ≠ 0b01#2 ∧ fld w 2 2 ≠ 0b11#2 ∧
    fld w 2 5 ≠ 0b10000#5 ∧ ¬ (fld w 2 5 = 0b00000#5 ∧ fld w 7 5 = 0b00001#5) := by decide

theorem witness_LaunchSetsState :
    amrLegal 3 = false ∧ amrLegal 0x00640801 = true ∧
    (∀ c ∈ [((0x20 : Word), (0x61 : Byte)), (0x20, 0x62), (0xFFFFFFFF, 1)], inAlloc Config.default c.1.toNat = true) ∧
    ([(ra 4, (1 : Word)), (ra 5, 2), (ra 4, 3)] = [(ra 4, 1), (ra 5, 2)] ++ (ra 4, 3) :: []) ∧
    (∀ p ∈ [(ra 4, (1 : Word)), (ra 5, 2)], p.1 ≠ rb 31) := by
  refine ⟨by decide, by decide, fun c hc => ?_, by decide, fun p hp => ?_⟩
  · simp only [List.mem_cons, List.not_mem_nil, or_false] at hc
    rcases hc with rfl | rfl | rfl <;> decide
  · simp only [List.mem_cons, List.not_mem_nil, or_false] at hp
    rcases hp with rfl | rfl <;> decide

theorem witness_CircularSelection :
    ((3 : RegIdx).val < 4 ∧ 7 < (8 : RegIdx).val) ∧ (4 ≤ (4 : RegIdx).val ∧ (7 : RegIdx).val ≤ 7) ∧
    (let amr : Word := 0x00640801; amr.extractLsb' 14 2 = 0b00#2 ∧ amr.extractLsb' 0 2 = 0b01#2 ∧
      amr.extractLsb' 10 2 = 0b10#2) ∧ (0x0000C000 : Word).extractLsb' 14 2 = 0b11#2 := by decide

theorem witness_ReservedAmrRefused : (∀ s ∈ [wit 0x04000000, wit 0x80000000, wit 3, wit 0x0000C000],
    s.fault = none ∧ s.refused = none ∧
      ((s.amr.extractLsb' 26 6 ≠ 0#6) ∨ ∃ k < 8, s.amr.extractLsb' (2 * k) 2 = 0b11#2)) := by decide

theorem witness_CircularArithmetic : (0 ≤ 31 ∧ 0 < 32) ∧ (31 ≤ 31 ∧ 31 < 32) := by decide

theorem witness_NonAlignedByteSequence : 0 ≤ 31 ∧ 31 ≤ 31 := by decide

theorem witness_CircularLaws : (0 ≤ 31 ∧ 31 ≤ 31) ∧ (2 : Word).toNat % 2 = 0 := by decide

theorem witness_AddressGenerator : ∀ u ∈ [Update.keep, .pre, .post],
    blk (wit 0x00040001).amr (opA 4 u .add (.reg 5) 1).base = .ok (some 4) := by
  intro u hu
  simp only [List.mem_cons, List.not_mem_nil, or_false] at hu
  rcases hu with rfl | rfl | rfl <;> rfl

theorem witness_AlignedAccessDoesNotWrap : 31 ≤ 31 ∧ (0xFFFFFFF8 : Word).toNat % bytesOf .dword = 0 ∧
    bytesOf .dword ≤ 2 ^ (31 + 1) ∧ 7 < bytesOf .dword ∧ bytesOf .dword ≤ 2 ^ (2 + 1) := by decide

theorem witness_ByteLoadsComplete : let s := wit 0x00040001; let o := opA 4 .pre .sub (.cst 1) 1
    blk s.amr o.base = .ok (some 4) ∧ Holds s (lsEA .byte o s (some 4)) (seq 31) := ⟨rfl, by decide, by decide⟩

theorem witness_HalfwordLoadsComplete : let s := wit 1; let o := atA4 1
    blk s.amr o.base = .ok (some 0) ∧ (lsEA .half o s (some 0)).toNat % 2 = 0 ∧
    ∀ k < 2, Holds s (byteAddr (lsEA .half o s (some 0)) (some 0) k) (seq k) :=
  ⟨rfl, by decide, by unfold Holds; decide⟩

theorem witness_WordLoadsComplete : let s := wit 0x00010001; let o := atA4 1
    blk s.amr o.base = .ok (some 1) ∧ BlockFits (some 1) 4 ∧ (lsEA .word o s (some 1)).toNat % 4 = 0 ∧
    ∀ k < 4, Holds s (byteAddr (lsEA .word o s (some 1)) (some 1) k) (seq k) :=
  ⟨rfl, by unfold BlockFits; decide, by decide, by unfold Holds; decide⟩

theorem witness_DoublewordLoadCompletes : let s := wit 0x00020001; let o := atA4 2
    blk s.amr o.base = .ok (some 2) ∧ BlockFits (some 2) 8 ∧ (lsEA .dword o s (some 2)).toNat % 8 = 0 ∧
    ∀ k < 8, Holds s (byteAddr (lsEA .dword o s (some 2)) (some 2) k) (seq k) :=
  ⟨rfl, by unfold BlockFits; decide, by decide, by unfold Holds; decide⟩

theorem witness_FifteenBitLoadsComplete : let s := wit 0
    Holds s (ls15EA .byte atB14 s) (seq 0) ∧
    ((ls15EA .half atB14 s).toNat % 2 = 0 ∧ ∀ k < 2, Holds s (ls15EA .half atB14 s + BitVec.ofNat 32 k) (seq k)) ∧
    ((ls15EA .word atB14 s).toNat % 4 = 0 ∧ ∀ k < 4, Holds s (ls15EA .word atB14 s + BitVec.ofNat 32 k) (seq k)) :=
  ⟨⟨by decide, by decide⟩, ⟨by decide, by unfold Holds; decide⟩, ⟨by decide, by unfold Holds; decide⟩⟩

theorem witness_SingleRegisterStoresComplete : let s := wit 0x00010001; let o := opA 4 .pre .sub (.cst 1) 4
    blk s.amr o.base = .ok (some 1) ∧ Allocated s (lsEA .byte o s (some 1)) ∧
    ((lsEA .half o s (some 1)).toNat % 2 = 0 ∧ ∀ k < 2, Allocated s (byteAddr (lsEA .half o s (some 1)) (some 1) k)) ∧
    BlockFits (some 1) 4 ∧ (∀ k < 4, Allocated s (byteAddr (lsEA .word o s (some 1)) (some 1) k)) ∧
    (lsEA .word o s (some 1)).toNat % 4 = 0 := by
  unfold Allocated BlockFits
  exact ⟨rfl, by decide⟩

theorem witness_DoublewordStoreCompletes : let s := wit 0x00020001; let o := atA4 2
    blk s.amr o.base = .ok (some 2) ∧ BlockFits (some 2) 8 ∧ (lsEA .dword o s (some 2)).toNat % 8 = 0 ∧
    ∀ k < 8, Allocated s (byteAddr (lsEA .dword o s (some 2)) (some 2) k) := by
  unfold Allocated BlockFits
  exact ⟨rfl, by decide⟩

theorem witness_FifteenBitStoresComplete : let s := wit 0
    Allocated s (ls15EA .byte atB14 s) ∧
    ((ls15EA .half atB14 s).toNat % 2 = 0 ∧ ∀ k < 2, Allocated s (ls15EA .half atB14 s + BitVec.ofNat 32 k)) ∧
    ((ls15EA .word atB14 s).toNat % 4 = 0 ∧ ∀ k < 4, Allocated s (ls15EA .word atB14 s + BitVec.ofNat 32 k)) := by
  unfold Allocated
  decide

/-- `STW A1,*A4` and then `LDBU *+A4[3]`: the fourth byte. -/
theorem witness_LoadSeesEarlierStore : let s := wit 0; let o := atA4 1; let o' := opA 4 .keep .add (.cst 3) 1
    ∃ t, blk s.amr o.base = .ok none ∧ exec (.stw o) s = .next t ∧ blk t.amr o'.base = .ok none ∧ 3 < 4 ∧
      lsEA .byte o' t none = byteAddr (lsEA .word o s none) none 3 := by
  refine ⟨_, rfl, rfl, rfl, by decide, ?_⟩
  decide

theorem witness_AddressArithmeticRegisterForms : blk (wit 0x00040001).amr ⟨DUnit.D1.file, 4⟩ = .ok (some 4) ∧
    blk (wit 0x00040001).amr ⟨DUnit.D2.file, 31⟩ = .ok none := ⟨rfl, rfl⟩

theorem witness_AddressArithmeticConstantForms : blk (wit 0x00030001).amr ⟨DUnit.D1.file, 4⟩ = .ok (some 3) ∧
    blk (wit 0x00030001).amr ⟨DUnit.D1.file, 0⟩ = .ok none := ⟨rfl, rfl⟩

theorem witness_NopOccupiesItsCycles : let s := (wit 0).withFetchWord 32 0x00010000;
    Running s ∧ s.pending = [] ∧ s.nopLeft = 0 ∧ s.fetch = some 0x00010000 ∧
    decode s.cfg.regsPerFile 0x00010000 = .ok (.nop 8) := ⟨⟨rfl, rfl, by decide⟩, rfl, rfl, rfl, rfl⟩

theorem witness_MisalignedAccessFaults : let s := (wit 0).setReg (ra 4) 0x101; let p : Ls15Op := ⟨.B15, 1, ra 1⟩
    let s' := s.setReg (rb 15) 0x101
    blk s.amr (atA4 2).base = .ok none ∧ (lsEA .half (atA4 2) s none).toNat % 2 ≠ 0 ∧
    (BlockFits none 4 ∧ (lsEA .word (atA4 2) s none).toNat % 4 ≠ 0) ∧
    (BlockFits none 8 ∧ (lsEA .dword (atA4 2) s none).toNat % 8 ≠ 0) ∧
    (ls15EA .half p s').toNat % 2 ≠ 0 ∧ (ls15EA .word p s').toNat % 4 ≠ 0 :=
  ⟨rfl, by decide, ⟨trivial, by decide⟩, ⟨trivial, by decide⟩, by decide, by decide⟩

theorem witness_ShortBlockFaults : blk (wit 0x00000001).amr (atA4 2).base = .ok (some 0) ∧ 2 ^ (0 + 1) < 4 ∧
    blk (wit 0x00010001).amr (atA4 2).base = .ok (some 1) ∧ 2 ^ (1 + 1) < 8 := ⟨rfl, by decide, rfl, by decide⟩

/-- The first or the last byte of the access is outside `alloc`. -/
theorem witness_UnallocatedAccessFaults : let s := wit 0; let o := atA4 2; let p := atB14
    blk s.amr o.base = .ok none ∧ ¬ Allocated (owning s []) (lsEA .byte o s none) ∧
    (∀ n ∈ [2, 4, 8], ∀ k ∈ [0, n - 1], let s := owning s [⟨0x100, k⟩]
      k < n ∧ (lsEA .dword o s none).toNat % n = 0 ∧ (∀ j < k, Allocated s (byteAddr (lsEA .dword o s none) none j)) ∧
      ¬ Allocated s (byteAddr (lsEA .dword o s none) none k)) ∧
    lsEA .half o s none = 0x100 ∧ lsEA .word o s none = 0x100 ∧ lsEA .dword o s none = 0x100 ∧
    BlockFits none 4 ∧ BlockFits none 8 ∧ ¬ Allocated (owning s []) (ls15EA .byte p s) ∧
    (∀ n ∈ [2, 4], ∀ k ∈ [0, n - 1], let s := owning s [⟨0x8000, k⟩]
      k < n ∧ (ls15EA .word p s).toNat % n = 0 ∧ (∀ j < k, Allocated s (byteAddr (ls15EA .word p s) none j)) ∧
      ¬ Allocated s (byteAddr (ls15EA .word p s) none k)) ∧
    ls15EA .half p s = 0x8000 ∧ ls15EA .word p s = 0x8000 := by
  unfold Allocated BlockFits
  exact ⟨rfl, by decide⟩

/-- The first or the last byte of the access has no value. -/
theorem witness_UnwrittenMemoryFaults : let o := atA4 2; let p := atB14
    let sA := fun k => start 0 [(ra 4, 0x200)] 0x200 ((List.range k).map seq)
    let sB := fun k => start 0 [(rb 14, 0x200)] 0x200 ((List.range k).map seq)
    blk (sA 0).amr o.base = .ok none ∧
    (∀ n ∈ [1, 2, 4, 8], ∀ k ∈ [0, n - 1], k < n ∧ (lsEA .dword o (sA k) none).toNat % n = 0 ∧
      (∀ j < n, Allocated (sA k) (byteAddr (lsEA .dword o (sA k) none) none j)) ∧
      (∀ j < k, (sA k).mem.read (byteAddr (lsEA .dword o (sA k) none) none j).toNat ≠ none) ∧
      (sA k).mem.read (byteAddr (lsEA .dword o (sA k) none) none k).toNat = none) ∧
    (∀ l ∈ [DataLen.byte, .half, .word], lsEA l o (sA 0) none = lsEA .dword o (sA 0) none) ∧
    BlockFits none 4 ∧ BlockFits none 8 ∧
    (∀ n ∈ [1, 2, 4], ∀ k ∈ [0, n - 1], k < n ∧ (ls15EA .word p (sB k)).toNat % n = 0 ∧
      (∀ j < n, Allocated (sB k) (byteAddr (ls15EA .word p (sB k)) none j)) ∧
      (∀ j < k, (sB k).mem.read (byteAddr (ls15EA .word p (sB k)) none j).toNat ≠ none) ∧
      (sB k).mem.read (byteAddr (ls15EA .word p (sB k)) none k).toNat = none) ∧
    (∀ l ∈ [DataLen.byte, .half], ls15EA l p (sB 0) = ls15EA .word p (sB 0)) := by
  unfold Allocated BlockFits
  exact ⟨rfl, by decide⟩

/-- A state with a write of A1 due now and one of A2 due later. -/
def inFlight : State := { wit 0 with t := 7, pending := [⟨7, ra 1, 5⟩, ⟨9, ra 2, 6⟩] }

/-- An instruction that goes on, one that faults, one that is refused, and a word that the decoder rejects. -/
theorem witness_StepRunsDecodedInstruction :
    (let s := inFlight.withFetchWord 32 0x00900264
      ∃ s1 t, Running s ∧ land s = .next s1 ∧ s1.fetch = some 0x00900264 ∧ s1.nopLeft = 0 ∧
        decode s1.cfg.regsPerFile 0x00900264 = .ok (.ldw (atA4 1)) ∧ exec (.ldw (atA4 1)) s1 = .next t) ∧
    (let s := (owning inFlight []).withFetchWord 32 0x00900264
      ∃ s1, Running s ∧ land s = .next s1 ∧ exec (.ldw (atA4 1)) s1 = .fault (.unallocatedAccess 0x100)) ∧
    (let s := inFlight.withFetchWord 32 0x01882080
      ∃ s1, Running s ∧ land s = .next s1 ∧ s1.fetch = some 0x01882080 ∧
        decode s1.cfg.regsPerFile 0x01882080 = .ok (.mpyh ⟨3, 2, 1, false, false⟩)) ∧
    decode .r32 0x00913265 = .error .parallelPacket :=
  ⟨⟨_, _, ⟨rfl, rfl, by decide⟩, rfl, rfl, rfl, rfl, rfl⟩, ⟨_, ⟨rfl, rfl, by decide⟩, rfl, rfl⟩,
    ⟨_, ⟨rfl, rfl, by decide⟩, rfl, rfl, rfl⟩, rfl⟩

theorem witness_StepWithoutIssueOnlyLands :
    (∃ s1, Running { inFlight with nopLeft := 8 } ∧ land { inFlight with nopLeft := 8 } = .next s1 ∧ s1.nopLeft ≠ 0) ∧
    (∃ s1, Running inFlight ∧ land inFlight = .next s1 ∧ s1.pc = s1.cfg.prog.length) :=
  ⟨⟨_, ⟨rfl, rfl, by decide⟩, rfl, by decide⟩, ⟨_, ⟨rfl, rfl, by decide⟩, rfl, rfl⟩⟩

theorem witness_LandingWritesDueValues : (inFlight.due.map PendingWrite.reg).Nodup ∧
    (∃ e ∈ inFlight.pending, e.landing = inFlight.t) ∧
    ∀ e ∈ inFlight.pending, e.landing = inFlight.t → e.reg ≠ ra 2 := by decide

theorem witness_WriteConflictFaults :
    (let s : State := { inFlight with pending := [⟨7, ra 1, 5⟩, ⟨7, ra 1, 6⟩] };
      Running s ∧ ¬ (s.due.map PendingWrite.reg).Nodup) ∧
    (Running inFlight ∧ (inFlight.due.map PendingWrite.reg).Nodup) :=
  ⟨⟨⟨rfl, rfl, by decide⟩, by decide⟩, ⟨⟨rfl, rfl, by decide⟩, by decide⟩⟩

/-- Three steps at the end of `prog`, from t = 7 to t = 10: the write of A2 is due at t = 9. -/
theorem witness_PendingWriteLandsOnTime : ∃ s', (⟨9, ra 2, 6⟩ : PendingWrite) ∈ inFlight.pending ∧ inFlight.t ≤ 9 ∧
    run 3 inFlight = .next s' ∧ s'.t = 9 + 1 :=
  ⟨_, by decide, by decide, rfl, rfl⟩

theorem witness_RegisterKeepsValueUntilLanding : ∃ s', step inFlight = .next s' ∧
    ∀ e ∈ inFlight.pending, e.landing = inFlight.t → e.reg ≠ ra 2 := ⟨_, rfl, by decide⟩

theorem witness_EveryInstructionsFrame : ∃ t, exec (.stw (opA 4 .post .add (.cst 1) 1)) (wit 0) = .next t := ⟨_, rfl⟩

theorem witness_AmrAndProgramConstant : ∃ s', run 2 inFlight = .next s' := ⟨_, rfl⟩

theorem witness_OnlyStoresChangeMemory : (∃ t, exec (.ldw (atA4 1)) (wit 0) = .next t) ∧
    (∀ o : LsOp, Instr.ldw (atA4 1) ≠ .stb o ∧ Instr.ldw (atA4 1) ≠ .sth o ∧ Instr.ldw (atA4 1) ≠ .stw o ∧
      Instr.ldw (atA4 1) ≠ .stnw o ∧ Instr.ldw (atA4 1) ≠ .stdw o) ∧
    (∀ o : Ls15Op, Instr.ldw (atA4 1) ≠ .stb15 o ∧ Instr.ldw (atA4 1) ≠ .sth15 o ∧ Instr.ldw (atA4 1) ≠ .stw15 o) :=
  ⟨⟨_, rfl⟩, fun _ => ⟨nofun, nofun, nofun, nofun, nofun⟩, fun _ => ⟨nofun, nofun, nofun⟩⟩

theorem inFlight_inv : Inv { inFlight with mem := [] } :=
  ⟨by decide, by decide, by decide, by decide, by decide, by decide⟩

theorem witness_RunDrains : let s : State := { inFlight with mem := [] };
    Running s ∧ Inv s ∧ s.pc = s.cfg.prog.length := ⟨⟨rfl, rfl, by decide⟩, inFlight_inv, rfl⟩

theorem witness_MarksAreNeverCleared :
    { wit 0 with fault := some (.writeConflict (ra 1)) }.fault = some (.writeConflict (ra 1)) ∧
    { wit 0 with refused := some .reservedAMR }.refused = some .reservedAMR ∧ (wit 0).fault = none := by decide

/-- A step that goes on; a fault and a refusal after a landing (of A1, not of A2); two conflicting landings. -/
theorem witness_StopKeepsLandingsAndSetsMark :
    (Running inFlight ∧ ∃ s', step inFlight = .next s') ∧
    (let s := (owning inFlight []).withFetchWord 32 0x00900264;
      Running s ∧ step s = .fault (.unallocatedAccess 0x100) ∧ (s.due.map PendingWrite.reg).Nodup ∧
      (⟨7, ra 1, 5⟩ : PendingWrite) ∈ s.pending ∧ ∀ e ∈ s.pending, e.landing = s.t → e.reg ≠ ra 2) ∧
    (let s := inFlight.withFetchWord 32 0x00913265;
      Running s ∧ step s = .refused (.word .parallelPacket)) ∧
    (let s : State := { inFlight with pending := [⟨7, ra 1, 5⟩, ⟨7, ra 1, 6⟩] };
      Running s ∧ step s = .fault (.writeConflict (ra 1)) ∧ ¬ (s.due.map PendingWrite.reg).Nodup) :=
  ⟨⟨⟨rfl, rfl, by decide⟩, _, rfl⟩, ⟨⟨rfl, rfl, by decide⟩, rfl, by decide⟩, ⟨⟨rfl, rfl, by decide⟩, rfl⟩,
    ⟨⟨rfl, rfl, by decide⟩, rfl, by decide⟩⟩

theorem witness_StepKeepsInvariant : ∃ s', Inv { inFlight with mem := [] } ∧ step { inFlight with mem := [] } = .next s' :=
  ⟨_, inFlight_inv, rfl⟩

theorem witness_AssemblerAddressOperands : (0 < 32 ∧ 31 < 32 ∧ 32 ≤ 32) ∧ (0 < 2 ^ 15 ∧ 0x7FFF < 2 ^ 15 ∧ 2 ^ 15 ≤ 0x8000) ∧
    (6 % bytesOf .word ≠ 0) ∧
    ((AsmForm.minus ≠ .plus ∧ AsmForm.minus ≠ .plain) ∧ (∀ b : Base15, rb 13 ≠ b.reg) ∧ ∀ b : Base15, ra 14 ≠ b.reg) ∧
    (AsmAddr.mk .plain (rb 14) .absent).offset = .absent ∧ (∃ r, (AsmAddr.mk .plus (rb 14) (.reg (rb 5))).offset = .reg r) ∧
    (AsmAddr.mk .plus (rb 4) (.units 1)).base.file ≠ DUnit.D1.file ∧
    (∃ r, (AsmAddr.mk .plus (ra 4) (.reg (rb 5))).offset = .reg r ∧ r.file ≠ DUnit.D1.file) :=
  ⟨by decide, by decide, by decide, ⟨by decide, fun b => by cases b <;> decide, fun b => by cases b <;> decide⟩, rfl, ⟨_, rfl⟩,
    by decide, rb 5, rfl, by decide⟩

theorem witness_AdmittedProgramsHaveSinglePackets : ∀ w ∈ [0x00903664#32, 0x00000000#32], ∃ i, decode .r32 w = .ok i := by
  intro w hw
  simp only [List.mem_cons, List.not_mem_nil, or_false] at hw
  rcases hw with rfl | rfl <;> exact ⟨_, rfl⟩

end Sys2Proof.Tests
end

section
/-! PROOFS. The state (10_state.md): the frame of every instruction, what a run keeps, reset, launch, AMR and the marks. -/

namespace Sys2Proof

/-! ### The registers an instruction names -/

/-- The register indices the decoder's check looks at (R64, R74): none for LDNDW, STNDW, MPYH and NOP (log 10). -/
def Instr.regIdx : Instr → List RegIdx
  | .ldhu o | .ldbu o | .ldb o | .ldh o | .ldw o | .ldnw o | .lddw o => o.regIdx
  | .stb o | .sth o | .stw o | .stnw o | .stdw o => o.regIdx
  | .ldhu15 o | .ldbu15 o | .ldb15 o | .ldh15 o | .ldw15 o | .stb15 o | .sth15 o | .stw15 o => [o.data.idx]
  | .addabR o | .addahR o | .addawR o | .addadR o | .subabR o | .subahR o | .subawR o => [o.src2, o.src1, o.dst]
  | .addabC o | .addahC o | .addawC o | .addadC o | .subabC o | .subahC o | .subawC o => [o.src2, o.dst]
  | .nop _ | .mpyh _ | .ldndw _ | .stndw _ => []

/-- Whether its registers exist is the first check on every instruction (R74, log 10). -/
theorem check_of_not_regsExist {n : RegsPerFile} {i : Instr} (h : regsExist n i.regIdx = false) :
    check n i = some .noSuchRegister := by
  cases i with
  | nop | mpyh | ldndw | stndw => cases h
  | _ => exact if_pos (congrArg not h)

/-- Of the conditions of `WellFormed` only the existence of the registers depends on the size of the files. -/
theorem wellFormed_of_regsExist {n m : RegsPerFile} {i : Instr} (hw : WellFormed n i)
    (h : regsExist m i.regIdx = true) : WellFormed m i := by
  cases i with
  | nop | mpyh | ldndw | stndw => exact hw
  | ldhu | ldbu | ldb | ldh | ldw | ldnw | lddw | stdw => exact ⟨h, hw.2⟩
  | _ => exact h

theorem decode_of_not_regsExist {n m : RegsPerFile} {w : Word} {i : Instr} (hd : decode n w = .ok i)
    (h : regsExist m i.regIdx = false) : decode m w = .error .noSuchRegister :=
  decode_of_check (decode_eq_ok.mp hd).1 (check_of_not_regsExist h)

theorem not_regsExist_of_mem {n : RegsPerFile} {l : List RegIdx} {r : RegIdx} (hr : r ∈ l) (h : n.count ≤ r.val) :
    regsExist n l = false :=
  Bool.eq_false_iff.mpr fun hl => absurd (Machine.regsExist_iff.mp hl r hr) (not_lt.mpr h)

/-- Settles O8: the check on registers comes first and is the only one that the size of the files changes. -/
theorem registersBeyondFileRefused : Obligations.RegistersBeyondFileRefused := by
  refine ⟨fun w i hd => ?_, fun w o hd hbig => ?_⟩
  · obtain ⟨hformat, hw32⟩ := decode_eq_ok.mp hd
    refine ⟨fun hw16 => decode_eq_ok.mpr ⟨hformat, hw16⟩, fun hw16 => ?_⟩
    exact decode_of_not_regsExist hd (Bool.eq_false_iff.mpr fun h => hw16 (wellFormed_of_regsExist hw32 h))
  · refine decode_of_not_regsExist hd ?_
    obtain hb | hb | ⟨r, hr, hb⟩ := hbig <;> refine not_regsExist_of_mem ?_ hb
    · simp [Instr.regIdx, LsOp.regIdx]
    · simp [Instr.regIdx, LsOp.regIdx]
    · simp [Instr.regIdx, LsOp.regIdx, hr, Offset.regIdx]

end Sys2Proof

namespace Sys2Proof.Machine

/-! ### What every instruction keeps -/

/-- Settles O48: the shape of `Effect`, which every instruction has, read field by field. -/
theorem everyInstructionsFrame : Obligations.EveryInstructionsFrame := by
  intro i s t h
  obtain ⟨ws, hE, -⟩ := exec_effect h
  rw [hE.shape]
  exact ⟨rfl, rfl, rfl, rfl, rfl, rfl, rfl, rfl, ws, rfl, hE.landing⟩

/-- Settles O49, by the induction over a run: each step keeps both. -/
theorem amrAndProgramConstant : Obligations.AmrAndProgramConstant := by
  intro n s s' hrun
  refine run_induction (P := fun u => u.amr = s.amr ∧ u.cfg = s.cfg) (fun u u' hu hstep => ?_) ⟨rfl, rfl⟩ hrun
  obtain ⟨hcfg, hamr, -⟩ := step_frame hstep
  exact ⟨hamr.trans hu.1, hcfg.trans hu.2⟩

/-- Settles O50: a load and an ADDA or SUBA issue register writes only, and so do NOP and the refused instructions. -/
theorem onlyStoresChangeMemory : Obligations.OnlyStoresChangeMemory := by
  intro i s t h hLs hLs15
  cases i with
  | stb o | sth o | stw o | stnw o | stdw o => simpa using hLs o
  | stb15 o | sth15 o | stw15 o => simpa using hLs15 o
  | ldhu | ldbu | ldb | ldh | ldw | ldnw | lddw => exact (load_effect h).1
  | ldhu15 | ldbu15 | ldb15 | ldh15 | ldw15 => exact (load_effect h).1
  | nop => cases h; rfl
  | mpyh | ldndw | stndw => cases h
  | _ => exact (addrAdd_effect h).1

/-! ### AMR -/

theorem circIndex_eq_none {f : RegFile} {i : RegIdx} (h : i.val < 4 ∨ 7 < i.val) : circIndex ⟨f, i⟩ = none := by
  have : ¬ (4 ≤ i.val ∧ i.val ≤ 7) := by omega
  cases f <;> exact if_neg this

theorem circIndex_eq_some {f : RegFile} {i : RegIdx} (h4 : 4 ≤ i.val) (h7 : i.val ≤ 7) :
    circIndex ⟨f, i⟩ = some (match f with | .A => i.val - 4 | .B => i.val) := by
  cases f <;> exact if_pos ⟨h4, h7⟩

/-- A register outside `CIRC_REGS` is linear (R20). -/
theorem blk_of_not_circ {amr : Word} {r : Reg} (h : circIndex r = none) : blk amr r = .ok none := by
  simp [blk, h]

/-- The selection a mode field makes (R20). -/
theorem blk_of_circ {amr : Word} {r : Reg} {k : Nat} (h : circIndex r = some k) :
    (amrMode amr k = 0b00#2 → blk amr r = .ok none) ∧
    (amrMode amr k = 0b01#2 → blk amr r = .ok (some (amrBK0 amr))) ∧
    (amrMode amr k = 0b10#2 → blk amr r = .ok (some (amrBK1 amr))) ∧
    (amrMode amr k = 0b11#2 → blk amr r = .error .reservedAMR) := by
  refine ⟨?_, ?_, ?_, ?_⟩ <;> intro hm <;> simp [blk, h, hm]

/-- With AMR 0 every register is linear (R28). -/
theorem blk_zero (r : Reg) : blk 0 r = .ok none := by
  cases h : circIndex r with
  | none => exact blk_of_not_circ h
  | some k => exact (blk_of_circ h).1 (by simp [amrMode])

/-- Settles O15: the mode field of the register decides, for the registers that have one. -/
theorem circularSelection : Obligations.CircularSelection := by
  intro amr f i
  exact ⟨fun h => blk_of_not_circ (circIndex_eq_none h), fun h4 h7 => blk_of_circ (circIndex_eq_some h4 h7)⟩

/-- Settles O16, by evaluating the selection of each of the 64 registers. -/
theorem workedAmrValue : Obligations.WorkedAmrValue := by
  refine ⟨by decide, by decide, ?_⟩
  rintro ⟨f, i⟩
  cases f <;> revert i <;> decide

theorem amrLegal_eq_false {amr : Word} :
    amrLegal amr = false ↔ amr.extractLsb' 26 6 ≠ 0#6 ∨ ∃ k < 8, amrMode amr k = 0b11#2 := by
  simp only [amrLegal, Bool.and_eq_false_iff, decide_eq_false_iff_not, List.all_eq_false, List.mem_range,
    decide_eq_true_eq, ne_eq, not_not]

theorem step_of_not_amrLegal {s : State} (hf : s.fault = none) (hr : s.refused = none) (ha : amrLegal s.amr = false) :
    step s = .refused .reservedAMR := by
  simp [step, hf, hr, ha]

/-- Settles O17: a reserved AMR is no legal one, and the step asks for that before anything runs. -/
theorem reservedAmrRefused : Obligations.ReservedAmrRefused := by
  intro s hf hr hres
  exact step_of_not_amrLegal hf hr (amrLegal_eq_false.mpr hres)

/-! ### Reset -/

/-- Settles O13: each component is read off the reset state; AMR 0 has only linear mode fields. -/
theorem resetLeaves : Obligations.ResetLeaves :=
  ⟨rfl, blk_zero, rfl, rfl, rfl, rfl, rfl, Memory.read_nil⟩

/-- Settles O55: memory and `pending` are empty, pc and the NOP count are 0. -/
theorem resetMeetsInvariant : Obligations.ResetMeetsInvariant where
  memWf := .nil
  memAlloc := nofun
  window := nofun
  regsExist := nofun
  pcInProg := Nat.zero_le _
  nopBound := Nat.zero_le _

/-! ### Launch -/

/-- Setting registers changes the register files only. -/
theorem State.setRegs_eq (s : State) (l : List (Reg × Word)) :
    s.setRegs l = { s with regsA := (s.setRegs l).regsA, regsB := (s.setRegs l).regsB } := by
  induction l generalizing s with
  | nil => rfl
  | cons p l ih =>
    obtain ⟨⟨f, i⟩, v⟩ := p
    simp only [State.setRegs]
    rw [ih]
    cases f <;> rfl

theorem State.reg_setRegs_of_not_mem (s : State) (l : List (Reg × Word)) (r : Reg) (h : ∀ p ∈ l, p.1 ≠ r) :
    (s.setRegs l).reg r = s.reg r := by
  induction l generalizing s with
  | nil => rfl
  | cons p l ih =>
    obtain ⟨hp, hl⟩ := List.forall_mem_cons.mp h
    rw [State.setRegs, ih _ hl, State.reg_setReg_ne _ _ (Ne.symm hp)]

/-- The last value given for a register stands (log 21). -/
theorem State.reg_setRegs_last (s : State) (l l' : List (Reg × Word)) (r : Reg) (v : Word) (h : ∀ p ∈ l', p.1 ≠ r) :
    (s.setRegs (l ++ (r, v) :: l')).reg r = v := by
  induction l generalizing s with
  | nil => rw [List.nil_append, State.setRegs, State.reg_setRegs_of_not_mem _ _ _ h, State.reg_setReg_same]
  | cons p l ih => exact ih _

/-- The state of a launch before its registers are set. -/
def Launch.baseState (l : Launch) : State :=
  { State.reset with
    cfg := l.cfg
    amr := l.amr
    mem := Memory.writeAll [] (l.mem.map Prod.fst) (l.mem.map Prod.snd) }

theorem launch_of_reserved {l : Launch} (h : amrLegal l.amr = false) : launch l = .refused .reservedAMR := by
  simp [launch, h]

theorem launch_of_legal {l : Launch} (h : amrLegal l.amr = true) (hmem : ∀ c ∈ l.mem, inAlloc l.cfg c.1.toNat = true) :
    launch l = .next (l.baseState.setRegs l.regs) := by
  have halloc : checkAlloc l.cfg (l.mem.map Prod.fst) = .next () :=
    checkAlloc_of_all (by simpa using fun a b hc => hmem (a, b) hc)
  simp [launch, h, halloc, Launch.baseState]

theorem Launch.read_baseState_of_not_mem {l : Launch} {a : Nat} (h : ∀ c ∈ l.mem, c.1.toNat ≠ a) :
    l.baseState.mem.read a = none := by
  refine (Memory.read_writeAll_ne fun x hx => ?_).trans (Memory.read_nil a)
  obtain ⟨c, hc, rfl⟩ := List.mem_map.mp hx
  exact Ne.symm (h c hc)

theorem Launch.read_baseState_last {l : Launch} {cs cs' : List (Word × Byte)} {a : Word} {b : Byte}
    (hl : l.mem = cs ++ (a, b) :: cs') (h : ∀ c ∈ cs', c.1 ≠ a) : l.baseState.mem.read a.toNat = some b := by
  simp only [Launch.baseState, hl, List.map_append, List.map_cons]
  refine Memory.read_writeAll_last (by simp) fun x hx => ?_
  obtain ⟨c, hc, rfl⟩ := List.mem_map.mp hx
  exact Ne.symm (h c hc)

/-- Settles O14: the registers are set over the launch's parameters, AMR and bytes, and change none of them. -/
theorem launchSetsState : Obligations.LaunchSetsState := by
  refine fun l => ⟨launch_of_reserved, fun hamr halloc => ⟨_, launch_of_legal hamr halloc, ?_⟩⟩
  have hshape := State.setRegs_eq l.baseState l.regs
  have hmem : (l.baseState.setRegs l.regs).mem = l.baseState.mem := by rw [hshape]
  refine ⟨congrArg State.cfg hshape, congrArg State.amr hshape, congrArg State.pc hshape, congrArg State.pending hshape,
    congrArg State.t hshape, congrArg State.nopLeft hshape, congrArg State.fault hshape, congrArg State.refused hshape,
    State.reg_setRegs_of_not_mem _ _, ?_, ?_, ?_⟩
  · intro rs r v rs' hregs hlast
    rw [hregs]
    exact State.reg_setRegs_last _ _ _ r v hlast
  · intro a ha
    rw [hmem, Launch.read_baseState_of_not_mem ha]
  · intro cs a b cs' hl hlast
    rw [hmem, Launch.read_baseState_last hl hlast]

/-! ### The marks -/

theorem step_of_fault {s : State} {f : Fault} (h : s.fault = some f) : step s = .fault f := by
  simp [step, h]

theorem step_of_refusal {s : State} {r : Refusal} (hf : s.fault = none) (h : s.refused = some r) :
    step s = .refused r := by
  simp [step, hf, h]

theorem cycle_of_marked {s : State} (h : s.marked = true) : cycle s = s := if_pos h

theorem final_of_marked {s : State} (h : s.marked = true) : s.final = false := by
  simp [State.final, h]

/-- Settles O52: either mark makes the state marked, which the cycle and the final condition ask for first. -/
theorem marksAreNeverCleared : Obligations.MarksAreNeverCleared := by
  refine fun s => ⟨fun f hf => ?_, fun r hr => ?_⟩
  · have hm : s.marked = true := by simp [State.marked, hf]
    exact ⟨step_of_fault hf, cycle_of_marked hm, final_of_marked hm⟩
  · have hm : s.marked = true := by simp [State.marked, hr]
    exact ⟨fun hf => step_of_refusal hf hr, cycle_of_marked hm, final_of_marked hm⟩

end Sys2Proof.Machine
end

section
/-! PROOFS. Data memory (20_memory.md): the invariant of the machine, accesses that do not wrap, what a store leaves for a
later load, and the faults of an access. -/

namespace Sys2Proof.Machine

/-! ### The invariant -/

section Effect

variable {s t : State} {ws : List PendingWrite} (h : Effect s t ws)
include h

theorem Effect.cfg_eq : t.cfg = s.cfg := (congrArg State.cfg h.shape :)

theorem Effect.pc_eq : t.pc = s.pc + 1 := (congrArg State.pc h.shape :)

theorem Effect.t_eq : t.t = s.t := (congrArg State.t h.shape :)

theorem Effect.pending_eq : t.pending = s.pending ++ ws := (congrArg State.pending h.shape :)

end Effect

/-- A write still in flight after the landing of its cycle was in flight before and is due in a later cycle. -/
theorem State.mem_pending_landed {s : State} {e : PendingWrite} :
    e ∈ s.landed.pending ↔ e ∈ s.pending ∧ e.landing ≠ s.t := by
  simp

/-- There is a word at `pc` only before the end of `prog` (R17). -/
theorem State.pc_lt_of_fetch {s : State} {w : Word} (h : s.fetch = some w) : s.pc < s.cfg.prog.length :=
  (List.getElem?_eq_some_iff.mp h).1

/-- The writes that the landing leaves in flight fit the window of the next cycle (R183). -/
theorem Inv.window_landed {s : State} (h : Inv s) {e : PendingWrite} (he : e ∈ s.landed.pending) :
    s.t + 1 ≤ e.landing ∧ e.landing ≤ s.t + 1 + 4 := by
  obtain ⟨hmem, hne⟩ := State.mem_pending_landed.mp he
  have := h.window e hmem
  omega

/-- A cycle in which nothing issues keeps the invariant. -/
theorem Inv.landed_idle_tick {s : State} (h : Inv s) : Inv s.landed.idle.tick where
  memWf := by simpa using h.memWf
  memAlloc := by simpa using h.memAlloc
  window e he := by simpa using h.window_landed he
  regsExist e he := by simpa using h.regsExist e (State.mem_pending_landed.mp he).1
  pcInProg := by simpa using h.pcInProg
  nopBound := by simpa using h.nopBound.trans (by omega)

/-- A cycle that performs a well-formed instruction keeps the invariant: its writes are due one or five cycles after, and it
stores to bytes of `alloc` only. -/
theorem Inv.exec_tick {s t : State} {w : Word} {i : Instr} (h : Inv s) (hw : s.fetch = some w)
    (hd : decode s.cfg.regsPerFile w = .ok i) (he : exec i s.landed = .next t) : Inv t.tick := by
  obtain ⟨ws, hE, hwell⟩ := exec_effect he
  obtain ⟨hexist, hnop⟩ := hwell _ (decode_eq_ok.mp hd).2
  have hcfg : t.cfg = s.cfg := hE.cfg_eq.trans s.cfg_landed
  have ht : t.t = s.t := hE.t_eq.trans s.t_landed
  have hpend {e : PendingWrite} (hmem : e ∈ t.tick.pending) : e ∈ s.landed.pending ∨ e ∈ ws := by
    rwa [State.pending_tick, hE.pending_eq, List.mem_append] at hmem
  refine ⟨hE.memWf (by simpa using h.memWf), fun c hc => ?_, fun e hmem => ?_, fun e hmem => ?_, ?_, ?_⟩
  · rw [State.cfg_tick, hcfg]
    rcases hE.memCells c hc with hold | hnew
    · exact h.memAlloc c (s.mem_landed ▸ hold)
    · rwa [State.cfg_landed] at hnew
  · rw [State.t_tick, ht]
    rcases hpend hmem with hold | hnew
    · exact h.window_landed hold
    · have := hE.landing e hnew
      rw [State.t_landed] at this
      omega
  · rw [State.cfg_tick, hcfg]
    rcases hpend hmem with hold | hnew
    · exact h.regsExist e (State.mem_pending_landed.mp hold).1
    · exact hexist e hnew
  · rw [State.pc_tick, State.cfg_tick, hcfg, hE.pc_eq, State.pc_landed]
    exact State.pc_lt_of_fetch hw
  · rw [State.nopLeft_tick]
    rcases hnop with hkept | hset
    · rw [hkept, State.nopLeft_landed]
      exact h.nopBound
    · exact hset

/-- Settles O54: a step either issues nothing or performs the well-formed instruction at `pc`, and both keep the invariant. -/
theorem stepKeepsInvariant : Obligations.StepKeepsInvariant := by
  intro s s' h hstep
  obtain ⟨-, -, ⟨rfl, -⟩ | ⟨w, i, t, hw, -, hd, he, rfl⟩⟩ := step_next hstep
  · exact h.landed_idle_tick
  · exact h.exec_tick hw hd he

/-! ### Accesses that do not wrap -/

theorem bytesOf_eq_two_pow (len : DataLen) : bytesOf len = 2 ^ shiftOf len := by cases len <;> rfl

theorem bytesOf_dvd_two_pow {len : DataLen} {m : Nat} (h : bytesOf len ≤ 2 ^ m) : bytesOf len ∣ 2 ^ m := by
  rw [bytesOf_eq_two_pow] at h ⊢
  exact Nat.pow_dvd_pow 2 ((Nat.pow_le_pow_iff_right (by decide)).mp h)

/-- The n bytes from a multiple of n on lie in one block of every multiple of n bytes. -/
theorem add_mod_of_dvd {a k n B : Nat} (hB : 0 < B) (hn : n ∣ B) (ha : n ∣ a) (hk : k < n) : (a + k) % B = a % B + k := by
  have hr : n ∣ a % B := (Nat.dvd_mod_iff hn).mpr ha
  have hle : n ≤ B - a % B := Nat.le_of_dvd (Nat.sub_pos_of_lt (Nat.mod_lt a hB)) (Nat.dvd_sub hn hr)
  have hkB : k % B = k := Nat.mod_eq_of_lt (by omega)
  rw [Nat.add_mod_of_add_mod_lt (by omega), hkB]

/-- Settles O22: adding k carries neither out of the block nor out of the address space, because the length divides both. -/
theorem alignedAccessDoesNotWrap : Obligations.AlignedAccessDoesNotWrap := by
  intro ea N len k hN hal hfit hk
  have hdvd : bytesOf len ∣ ea.toNat := Nat.dvd_of_mod_eq_zero hal
  have hlen : bytesOf len ≤ 8 := by cases len <;> decide
  have hspace := add_mod_of_dvd (by decide) (bytesOf_dvd_two_pow (m := 32) (by omega)) hdvd hk
  have hblock := add_mod_of_dvd (Nat.two_pow_pos _) (bytesOf_dvd_two_pow hfit) hdvd hk
  have hlin : (byteAddr ea none k).toNat = ea.toNat + k := by
    rw [byteAddr_none, BitVec.toNat_add, BitVec.toNat_ofNat, Nat.add_mod_mod, hspace, Nat.mod_eq_of_lt ea.isLt]
  refine ⟨BitVec.eq_of_toNat_eq ?_, hlin⟩
  calc (byteAddr ea (some N) k).toNat
      = ea.toNat / 2 ^ (N + 1) * 2 ^ (N + 1) + (byteAddr ea none k).toNat % 2 ^ (N + 1) := circ_toNat hN _ _ _
    _ = ea.toNat / 2 ^ (N + 1) * 2 ^ (N + 1) + ea.toNat % 2 ^ (N + 1) + k := by rw [hlin, hblock, Nat.add_assoc]
    _ = (byteAddr ea none k).toNat := by rw [Nat.div_add_mod', hlin]

/-! ### A load after a store -/

/-- A STORE that completes had every byte in `alloc` and stored exactly its bytes. -/
theorem storesBytes_of_store {len : DataLen} {al : Bool} {d : BitVec 64} {ad : Addressing} {s t : State} {N : Option Nat}
    (hN : blk s.amr ad.base = .ok N) (h : store len al d ad s = .next t) :
    t.cfg = s.cfg ∧
    (∀ k < bytesOf len, Allocated s (byteAddr (agen ad.update ad.sign (s.reg ad.base) ad.off N).1 N k)) ∧
    StoresBytes s t (byteAddr (agen ad.update ad.sign (s.reg ad.base) ad.off N).1 N) (bytesOf len)
      (byteOf s.cfg.endian (bytesOf len) d) := by
  obtain ⟨a, ha, halloc, hshape⟩ := store_eq_next.mp h
  obtain ⟨N', hN', hfit, halign, rfl⟩ := access_eq_next.mp ha
  obtain rfl : N' = N := Except.ok.inj (hN'.symm.trans hN)
  have hbytes k (hk : k < bytesOf len) := halloc _ (mem_byteAddrs.mpr ⟨k, hk, rfl⟩)
  obtain ⟨t', ht', -, hstored⟩ := store_of (d := d) hN hfit halign hbytes
  obtain rfl : t' = t := Host.Outcome.next.inj (ht'.symm.trans h)
  exact ⟨(congrArg State.cfg hshape :), hbytes, hstored⟩

/-- LDBU completes where the byte at EA holds a value (R103). -/
theorem exec_ldbu_of_holds {o : LsOp} {s : State} {N : Option Nat} {b : Byte} (hN : blk s.amr o.base = .ok N)
    (h : Holds s (lsEA .byte o s N) b) :
    exec (.ldbu o) s = .next (issued s (baseWrites s o.base (lsNewBase .byte o s N) ++
      [⟨s.t + 5, o.data, b.setWidth 32⟩])) := by
  have hload := load_of (len := .byte) (al := true) (results := fun v => [(o.data, zextByte v)])
    (ad := lsAddressing .byte o s) (b := fun _ => b) hN (blockFits_two N (by decide)) (fun _ => Nat.mod_one _)
    (fun k hk => by rw [Nat.lt_one_iff.mp hk, byteAddr_zero]; exact h)
  simp only [zextByte, bytesOf, datumOf_byte, List.map_cons, List.map_nil] at hload
  exact hload

/-- Settles O32: the bytes STW stores stay in `alloc` and hold their values, and LDBU delivers the byte at its EA. -/
theorem loadSeesEarlierStore : Obligations.LoadSeesEarlierStore := by
  intro o o' s t N N' k hk hN hstw hN' hea
  obtain ⟨hcfg, halloc, hstored, -⟩ := storesBytes_of_store (ad := lsAddressing .word o s) hN hstw
  refine exec_ldbu_of_holds hN' ⟨?_, ?_⟩
  · rw [hea, hcfg]
    exact halloc k hk
  · rw [hea, ← byteOf_setWidth _ (by decide) _ hk]
    exact hstored k hk

/-! ### Faults of an access -/

/-- LOAD and STORE at this address operand stop with the fault `f`, whatever they would deliver or store. -/
structure TemplatesFault (len : DataLen) (al : Bool) (ad : Addressing) (s : State) (f : Fault) : Prop where
  load : ∀ results, Machine.load len al results ad s = .fault f
  store : ∀ d, Machine.store len al d ad s = .fault f

section Faults

variable {len : DataLen} {al : Bool} {ad : Addressing} {s : State} {N : Option Nat}

theorem templatesFault_of_access {f : Fault} (h : access len al ad s = .fault f) : TemplatesFault len al ad s f :=
  ⟨fun _ => load_of_access_fault h, fun _ => store_of_access_fault h⟩

theorem templatesFault_of_misaligned (hN : blk s.amr ad.base = .ok N) (hf : BlockFits N (bytesOf len))
    (ha : (agen ad.update ad.sign (s.reg ad.base) ad.off N).1.toNat % bytesOf len ≠ 0) :
    TemplatesFault len true ad s (.misaligned (agen ad.update ad.sign (s.reg ad.base) ad.off N).1 (bytesOf len)) :=
  templatesFault_of_access (access_of_misaligned hN hf ha)

theorem templatesFault_of_shortBlock {N : Nat} (hN : blk s.amr ad.base = .ok (some N)) (hf : 2 ^ (N + 1) < bytesOf len) :
    TemplatesFault len al ad s (.blockSmallerThanDatum N (bytesOf len)) :=
  templatesFault_of_access (access_of_shortBlock hN hf)

theorem templatesFault_of_unallocated {k : Nat} (hN : blk s.amr ad.base = .ok N) (hf : BlockFits N (bytesOf len))
    (ha : al = true → (agen ad.update ad.sign (s.reg ad.base) ad.off N).1.toNat % bytesOf len = 0) (hk : k < bytesOf len)
    (h : ∀ j < k, Allocated s (byteAddr (agen ad.update ad.sign (s.reg ad.base) ad.off N).1 N j))
    (hu : ¬ Allocated s (byteAddr (agen ad.update ad.sign (s.reg ad.base) ad.off N).1 N k)) :
    TemplatesFault len al ad s
      (.unallocatedAccess (byteAddr (agen ad.update ad.sign (s.reg ad.base) ad.off N).1 N k)) :=
  ⟨fun _ => load_of_unallocated hN hf ha hk h hu, fun _ => store_of_unallocated hN hf ha hk h hu⟩

/-- The one byte of a byte access stands at EA. -/
theorem templatesFault_of_unallocated_byte (hN : blk s.amr ad.base = .ok N)
    (hu : ¬ Allocated s (agen ad.update ad.sign (s.reg ad.base) ad.off N).1) :
    TemplatesFault .byte al ad s (.unallocatedAccess (agen ad.update ad.sign (s.reg ad.base) ad.off N).1) := by
  rw [← byteAddr_zero (agen _ _ _ _ N).1 N] at hu ⊢
  exact templatesFault_of_unallocated hN (blockFits_two N (by decide)) (fun _ => Nat.mod_one _) Nat.one_pos nofun hu

theorem load_byte_of_unwritten {results : BitVec 64 → List (Reg × Word)} (hN : blk s.amr ad.base = .ok N)
    (hal : Allocated s (agen ad.update ad.sign (s.reg ad.base) ad.off N).1)
    (hu : s.mem.read (agen ad.update ad.sign (s.reg ad.base) ad.off N).1.toNat = none) :
    load .byte al results ad s = .fault (.unwrittenMemory (agen ad.update ad.sign (s.reg ad.base) ad.off N).1) := by
  rw [← byteAddr_zero (agen _ _ _ _ N).1 N] at hal hu ⊢
  exact load_of_unwritten hN (blockFits_two N (by decide)) (fun _ => Nat.mod_one _) Nat.one_pos
    (fun j hj => Nat.lt_one_iff.mp hj ▸ hal) nofun hu

end Faults

/-- Settles O38: each aligned form runs a template whose address part answers the fault. -/
theorem misalignedAccessFaults : Obligations.MisalignedAccessFaults := by
  intro o p s N hN
  have hp := blk_base15 s.amr p.base
  simp only [List.mem_cons, forall_eq_or_imp, List.not_mem_nil, or_false, forall_eq]
  refine ⟨fun ha => ?_, fun hf ha => ?_, fun hf ha => ?_, fun ha => ?_, fun ha => ?_⟩
  · have h := templatesFault_of_misaligned (len := .half) (ad := lsAddressing .half o s) hN (blockFits_two N le_rfl) ha
    exact ⟨h.load _, h.load _, h.store _⟩
  · have h := templatesFault_of_misaligned (len := .word) (ad := lsAddressing .word o s) hN hf ha
    exact ⟨h.load _, h.store _⟩
  · have h := templatesFault_of_misaligned (len := .dword) (ad := lsAddressing .dword o s) hN hf ha
    exact ⟨h.load _, h.store _⟩
  · have h := templatesFault_of_misaligned (len := .half) (ad := ls15Addressing .half p) hp trivial ha
    exact ⟨h.load _, h.load _, h.store _⟩
  · have h := templatesFault_of_misaligned (len := .word) (ad := ls15Addressing .word p) hp trivial ha
    exact ⟨h.load _, h.store _⟩

/-- Settles O39: the block-length condition is asked before the alignment, so the non-aligned forms answer the same fault. -/
theorem shortBlockFaults : Obligations.ShortBlockFaults := by
  intro o s N hN
  simp only [List.mem_cons, forall_eq_or_imp, List.not_mem_nil, or_false, forall_eq]
  refine ⟨fun hf => ?_, fun hf => ?_⟩
  · have h al := templatesFault_of_shortBlock (len := .word) (al := al) (ad := lsAddressing .word o s) hN hf
    exact ⟨(h true).load _, (h false).load _, (h true).store _, (h false).store _⟩
  · have h := templatesFault_of_shortBlock (len := .dword) (al := true) (ad := lsAddressing .dword o s) hN hf
    exact ⟨h.load _, h.store _⟩

/-- Settles O40: LOAD and STORE check every byte against `alloc` once the address part has answered. -/
theorem unallocatedAccessFaults : Obligations.UnallocatedAccessFaults := by
  intro o p s N k hN
  have hp := blk_base15 s.amr p.base
  have hf2 := blockFits_two N (le_refl 2)
  simp only [List.mem_cons, forall_eq_or_imp, List.not_mem_nil, or_false, forall_eq]
  refine ⟨fun hu => ?_, fun hk ha h hu => ?_, fun hk hf h hu => ⟨?_, fun ha => ?_⟩, fun hk hf ha h hu => ?_, fun hu => ?_,
    fun hk ha h hu => ?_, fun hk ha h hu => ?_⟩
  · have hfault := templatesFault_of_unallocated_byte (al := true) (ad := lsAddressing .byte o s) hN hu
    exact ⟨hfault.load _, hfault.load _, hfault.store _⟩
  · have hfault := templatesFault_of_unallocated (al := true) (len := .half) (ad := lsAddressing .half o s) hN hf2
      (fun _ => ha) hk h hu
    exact ⟨hfault.load _, hfault.load _, hfault.store _⟩
  · have hfault := templatesFault_of_unallocated (al := false) (len := .word) (ad := lsAddressing .word o s) hN hf
      nofun hk h hu
    exact ⟨hfault.load _, hfault.store _⟩
  · have hfault := templatesFault_of_unallocated (al := true) (len := .word) (ad := lsAddressing .word o s) hN hf
      (fun _ => ha) hk h hu
    exact ⟨hfault.load _, hfault.store _⟩
  · have hfault := templatesFault_of_unallocated (al := true) (len := .dword) (ad := lsAddressing .dword o s) hN hf
      (fun _ => ha) hk h hu
    exact ⟨hfault.load _, hfault.store _⟩
  · have hfault := templatesFault_of_unallocated_byte (al := true) (ad := ls15Addressing .byte p) hp hu
    exact ⟨hfault.load _, hfault.load _, hfault.store _⟩
  · have hfault := templatesFault_of_unallocated (al := true) (len := .half) (ad := ls15Addressing .half p) hp trivial
      (fun _ => ha) hk h hu
    exact ⟨hfault.load _, hfault.load _, hfault.store _⟩
  · have hfault := templatesFault_of_unallocated (al := true) (len := .word) (ad := ls15Addressing .word p) hp trivial
      (fun _ => ha) hk h hu
    exact ⟨hfault.load _, hfault.store _⟩

/-- Settles O41: LOAD reads the bytes in address order once all of them are known to be allocated. -/
theorem unwrittenMemoryFaults : Obligations.UnwrittenMemoryFaults := by
  intro o p s N k hN
  have hp := blk_base15 s.amr p.base
  have hf2 := blockFits_two N (le_refl 2)
  simp only [List.mem_cons, forall_eq_or_imp, List.not_mem_nil, or_false, forall_eq]
  refine ⟨fun hal hu => ?_, fun hk ha hal h hu => ?_, fun hk hf hal h hu => ⟨?_, fun ha => ?_⟩,
    fun hk hf ha hal h hu => ?_, fun hal hu => ?_, fun hk ha hal h hu => ?_, fun hk ha hal h hu => ?_⟩
  · have hload results := load_byte_of_unwritten (al := true) (results := results) (ad := lsAddressing .byte o s) hN hal hu
    exact ⟨hload _, hload _⟩
  · have hload results := load_of_unwritten (len := .half) (al := true) (results := results)
      (ad := lsAddressing .half o s) hN hf2 (fun _ => ha) hk hal h hu
    exact ⟨hload _, hload _⟩
  · exact load_of_unwritten (ad := lsAddressing .word o s) hN hf nofun hk hal h hu
  · exact load_of_unwritten (ad := lsAddressing .word o s) hN hf (fun _ => ha) hk hal h hu
  · exact load_of_unwritten (ad := lsAddressing .dword o s) hN hf (fun _ => ha) hk hal h hu
  · have hload results := load_byte_of_unwritten (al := true) (results := results) (ad := ls15Addressing .byte p) hp hal hu
    exact ⟨hload _, hload _⟩
  · have hload results := load_of_unwritten (len := .half) (al := true) (results := results)
      (ad := ls15Addressing .half p) hp trivial (fun _ => ha) hk hal h hu
    exact ⟨hload _, hload _⟩
  · exact load_of_unwritten (ad := ls15Addressing .word p) hp trivial (fun _ => ha) hk hal h hu

end Sys2Proof.Machine
end

section
/-! PROOFS. Encoding (30_encoding.md): decoding and encoding undo each other, the words the decoder refuses, packets of admitted
words, and the assembler's address operands. -/

namespace Sys2Proof

/-! ### Fields of a word -/

theorem fld_bit (w : Word) (j : Nat) : fld w j 1 = BitVec.ofBool (w.getLsbD j) := by
  ext k hk
  obtain rfl : k = 0 := by omega
  simp [fld]

theorem fld_bit_of_ne_one {w : Word} {j : Nat} (h : fld w j 1 ≠ 1#1) : fld w j 1 = 0#1 :=
  (BitVec.eq_zero_or_eq_one _).resolve_right h

/-- A field that lies inside another. -/
theorem fld_eq_extract (w : Word) {lo k m len : Nat} (h : k + m ≤ len) :
    fld w (lo + k) m = (fld w lo len).extractLsb' k m := by
  ext j hj
  have hk : k + j < len := by omega
  simp [fld, hk, Nat.add_assoc]

/-- `creg` and `z` (R58) are one field. -/
theorem fld_28_4_ne_zero {w : Word} (h : fld w 29 3 ≠ 0#3 ∨ fld w 28 1 ≠ 0#1) : fld w 28 4 ≠ 0#4 := by
  have hcreg := fld_eq_extract w (lo := 28) (k := 1) (m := 3) (len := 4) (by decide)
  have hz := fld_eq_extract w (lo := 28) (k := 0) (m := 1) (len := 4) (by decide)
  intro h0
  rw [h0] at hcreg hz
  exact h.elim (· hcreg) (· hz)

/-- A field is known by its number, which the opcode and mode tables of the decoder match on. -/
theorem ofNat_toNat_eq {m : Nat} (x : BitVec m) : BitVec.ofNat m x.toNat = x := by
  rw [BitVec.ofNat_toNat, BitVec.setWidth_eq]

theorem encodeReg_regFld (w : Word) (lo : Nat) : encodeReg (regFld w lo) = fld w lo 5 := rfl

theorem regFld_odd {w : Word} {lo : Nat} (h : w.getLsbD lo = true) : (regFld w lo).val % 2 = 1 := by
  have hbit : (fld w lo 5).getLsbD 0 = true := by simpa [fld] using h
  rw [BitVec.getLsbD, Nat.testBit_zero, decide_eq_true_eq] at hbit
  exact hbit

@[simp] theorem bit_fileOfBit (b : BitVec 1) : (fileOfBit b).bit = b := by
  obtain rfl | rfl := b.eq_zero_or_eq_one <;> rfl

@[simp] theorem bit_unitOfBit (b : BitVec 1) : (unitOfBit b).bit = b := by
  obtain rfl | rfl := b.eq_zero_or_eq_one <;> rfl

theorem bit_base15OfBit (b : BitVec 1) : (if b = 0#1 then Base15.B14 else .B15).bit = b := by
  obtain rfl | rfl := b.eq_zero_or_eq_one <;> rfl

theorem ofBool_bit (b : BitVec 1) : BitVec.ofBool (decide (b = 1#1)) = b := by
  obtain rfl | rfl := b.eq_zero_or_eq_one <;> rfl

/-! ### A word is its fields -/

/-- Two fields side by side are one field. -/
theorem fld_append (w : Word) {hi lo m n : Nat} (h : hi = lo + n) : fld w hi m ++ fld w lo n = fld w lo (m + n) := by
  subst h
  exact BitVec.extractLsb'_append_extractLsb'_eq_extractLsb' rfl

theorem fld_all (w : Word) : fld w 0 32 = w := BitVec.extractLsb'_eq_self

theorem append_fields_NOP (w : Word) : fld w 17 15 ++ fld w 13 4 ++ fld w 0 13 = w := by
  rw [fld_append w (rfl : 17 = 13 + 4), fld_append w (rfl : 13 = 0 + 13)]
  exact fld_all w

theorem append_fields_LS (w : Word) : fld w 28 4 ++ fld w 23 5 ++ fld w 18 5 ++ fld w 13 5 ++ fld w 9 4 ++ fld w 8 1 ++
    fld w 7 1 ++ fld w 4 3 ++ fld w 2 2 ++ fld w 1 1 ++ fld w 0 1 = w := by
  rw [fld_append w (rfl : 28 = 23 + 5), fld_append w (rfl : 23 = 18 + 5), fld_append w (rfl : 18 = 13 + 5),
    fld_append w (rfl : 13 = 9 + 4), fld_append w (rfl : 9 = 8 + 1), fld_append w (rfl : 8 = 7 + 1),
    fld_append w (rfl : 7 = 4 + 3), fld_append w (rfl : 4 = 2 + 2), fld_append w (rfl : 2 = 1 + 1),
    fld_append w (rfl : 1 = 0 + 1)]
  exact fld_all w

theorem append_fields_LS15 (w : Word) : fld w 28 4 ++ fld w 23 5 ++ fld w 8 15 ++ fld w 7 1 ++ fld w 4 3 ++ fld w 2 2 ++
    fld w 1 1 ++ fld w 0 1 = w := by
  rw [fld_append w (rfl : 28 = 23 + 5), fld_append w (rfl : 23 = 8 + 15), fld_append w (rfl : 8 = 7 + 1),
    fld_append w (rfl : 7 = 4 + 3), fld_append w (rfl : 4 = 2 + 2), fld_append w (rfl : 2 = 1 + 1),
    fld_append w (rfl : 1 = 0 + 1)]
  exact fld_all w

theorem append_fields_DA (w : Word) : fld w 28 4 ++ fld w 23 5 ++ fld w 18 5 ++ fld w 13 5 ++ fld w 7 6 ++ fld w 2 5 ++
    fld w 1 1 ++ fld w 0 1 = w := by
  rw [fld_append w (rfl : 28 = 23 + 5), fld_append w (rfl : 23 = 18 + 5), fld_append w (rfl : 18 = 13 + 5),
    fld_append w (rfl : 13 = 7 + 6), fld_append w (rfl : 7 = 2 + 5), fld_append w (rfl : 2 = 1 + 1),
    fld_append w (rfl : 1 = 0 + 1)]
  exact fld_all w

theorem append_fields_M (w : Word) : fld w 28 4 ++ fld w 23 5 ++ fld w 18 5 ++ fld w 13 5 ++ fld w 12 1 ++ fld w 7 5 ++
    fld w 2 5 ++ fld w 1 1 ++ fld w 0 1 = w := by
  rw [fld_append w (rfl : 28 = 23 + 5), fld_append w (rfl : 23 = 18 + 5), fld_append w (rfl : 18 = 13 + 5),
    fld_append w (rfl : 13 = 12 + 1), fld_append w (rfl : 12 = 7 + 5), fld_append w (rfl : 7 = 2 + 5),
    fld_append w (rfl : 2 = 1 + 1), fld_append w (rfl : 1 = 0 + 1)]
  exact fld_all w

/-! ### The seven tests of R74 -/

/-- A word with a bit of 12:1 set is no NOP word (R56). -/
theorem not_nop_of_fld {w : Word} {k m : Nat} (h : k + m ≤ 12) (hne : fld w (1 + k) m ≠ 0#m) :
    ¬ (fld w 17 15 = 0#15 ∧ fld w 1 12 = 0#12) := by
  rintro ⟨-, h0⟩
  rw [fld_eq_extract w h, h0] at hne
  simp at hne

theorem decodeFormat_of_parallel {w : Word} (hp : w.getLsbD 0 = true) : decodeFormat w = .error .parallelPacket :=
  if_pos (by rw [fld_bit, hp]; rfl)

section Formats

variable {w : Word} (hp : w.getLsbD 0 = false)

include hp

theorem fld_p_ne_one : fld w 0 1 ≠ 1#1 := by
  rw [fld_bit, hp]
  decide

theorem decodeFormat_LS (hx : fld w 2 2 = 0b01#2) : decodeFormat w = decodeLS w := by
  have hnop := not_nop_of_fld (k := 1) (m := 2) (by decide) (by rw [hx]; decide)
  rw [decodeFormat, if_neg (fld_p_ne_one hp), if_neg hnop, if_pos hx]

theorem decodeFormat_LS15 (hx : fld w 2 2 = 0b11#2) : decodeFormat w = decodeLS15 w := by
  have hnop := not_nop_of_fld (k := 1) (m := 2) (by decide) (by rw [hx]; decide)
  rw [decodeFormat, if_neg (fld_p_ne_one hp), if_neg hnop, if_neg (by rw [hx]; decide), if_pos hx]

theorem decodeFormat_DA (hx : fld w 2 5 = 0b10000#5) : decodeFormat w = decodeDA w := by
  have hnop := not_nop_of_fld (k := 1) (m := 5) (by decide) (by rw [hx]; decide)
  have h22 := fld22_of_fld25 hx
  rw [decodeFormat, if_neg (fld_p_ne_one hp), if_neg hnop, if_neg (by rw [h22]; decide), if_neg (by rw [h22]; decide),
    if_pos hx]

theorem decodeFormat_M (hx : fld w 2 5 = 0b00000#5) (hy : fld w 7 5 = 0b00001#5) : decodeFormat w = decodeM w := by
  have hnop := not_nop_of_fld (k := 6) (m := 5) (by decide) (by rw [hy]; decide)
  have h22 := fld22_of_fld25 hx
  rw [decodeFormat, if_neg (fld_p_ne_one hp), if_neg hnop, if_neg (by rw [h22]; decide), if_neg (by rw [h22]; decide),
    if_neg (by rw [hx]; decide), if_pos ⟨hx, hy⟩]

end Formats

/-- A NOP word (R56), whatever its count. -/
theorem decodeFormat_nop (cnt : BitVec 4) : decodeFormat (0#15 ++ cnt ++ 0#13) = .ok (.nop cnt) := by
  revert cnt
  decide

/-! ### The operands of a word of format LS -/

/-- What a word of format LS names besides its opcode, once the mode field is read (R53). -/
def lsOperands (w : Word) (u : Update) (s : Sign) (byReg : Bool) : LsOp where
  unit := unitOfBit (fld w 7 1)
  baseR := regFld w 18
  update := u
  sign := s
  offset := if byReg then .reg (regFld w 13) else .cst (fld w 13 5)
  data := ⟨fileOfBit (fld w 1 1), regFld w 23⟩

theorem decodeLS_of_mode {w : Word} {u : Update} {s : Sign} {b : Bool} (hc : fld w 28 4 = 0#4)
    (hm : decodeMode (fld w 9 4) = some (u, s, b)) :
    decodeLS w = decodeOp (fld w 8 1) (fld w 4 3) (lsOperands w u s b) := by
  rw [decodeLS, if_neg (not_not.mpr hc), hm]
  rfl

theorem decodeLS_eq_ok {w : Word} {i : Instr} (h : decodeLS w = .ok i) :
    fld w 28 4 = 0#4 ∧ ∃ u s b, decodeMode (fld w 9 4) = some (u, s, b) ∧
      decodeOp (fld w 8 1) (fld w 4 3) (lsOperands w u s b) = .ok i := by
  by_cases hc : fld w 28 4 = 0#4
  · cases hm : decodeMode (fld w 9 4) with
    | none => rw [decodeLS, if_neg (not_not.mpr hc), hm] at h; cases h
    | some m => exact ⟨hc, m.1, m.2.1, m.2.2, rfl, decodeLS_of_mode hc hm ▸ h⟩
  · rw [decodeLS, if_pos hc] at h
    cases h

/-- The mode field is the encoding of what it says (R61). -/
theorem encodeMode_of_decodeMode {m : BitVec 4} {u : Update} {s : Sign} {b : Bool} (h : decodeMode m = some (u, s, b))
    (r : RegIdx) (c : BitVec 5) : encodeMode u s (if b then .reg r else .cst c) = m := by
  rw [← ofNat_toNat_eq m]
  unfold decodeMode at h
  split at h <;> cases h <;> simp only [*, encodeMode, Bool.false_eq_true, if_true, if_false] <;> rfl

/-- Bit 2 of the mode field says whether the offset is a register (R61). -/
theorem byReg_of_decodeMode {m : BitVec 4} {u : Update} {s : Sign} {b : Bool} (h : decodeMode m = some (u, s, b)) :
    b = m.getLsbD 2 := by
  rw [← encodeMode_of_decodeMode h 0 0]
  cases b <;> cases u <;> cases s <;> rfl

/-- No mode field but those of `encodeMode` is defined; the four others are reserved (R62). -/
theorem decodeMode_reserved {m : BitVec 4} (h : m ∈ [0b0010#4, 0b0011#4, 0b0110#4, 0b0111#4]) : decodeMode m = none := by
  revert m
  decide

/-! ### Decoding undoes encoding -/

/-- The decoder's format tests and opcode tables read every encoded word back, well formed or not. -/
theorem decodeFormat_encode (i : Instr) : decodeFormat (encode i) = .ok i := by
  cases i with
  | ldhu o | ldbu o | ldb o | stb o | ldh o | sth o | ldw o | stw o => exact decodeFormat_encodeLS _ _ o
  | ldnw o | stdw o | stnw o | lddw o | ldndw o | stndw o => exact decodeFormat_encodeLS _ _ o
  | ldhu15 o | ldbu15 o | ldb15 o | stb15 o | ldh15 o | sth15 o | ldw15 o | stw15 o => exact decodeFormat_encodeLS15 _ o
  | addabR o | addahR o | addawR o | addadR o | subabR o | subahR o | subawR o => exact decodeFormat_encodeDA _ _ _ _ _
  | addabC o | addahC o | addawC o | addadC o | subabC o | subahC o | subawC o => exact decodeFormat_encodeDA _ _ _ _ _
  | nop cnt => exact decodeFormat_nop cnt
  | mpyh o => exact decodeFormat_encodeM o

/-- Settles O1: well-formedness is all that `decode` asks beyond the format. -/
theorem decodeOfEncode : Obligations.DecodeOfEncode :=
  fun _ i hw => decode_eq_ok.mpr ⟨decodeFormat_encode i, hw⟩

/-! ### Encoding undoes decoding -/

/-- The `r` and `op` fields are those of the row that decodes them (R63). -/
theorem encode_of_decodeOp {r : BitVec 1} {op : BitVec 3} {o : LsOp} {i : Instr} (h : decodeOp r op o = .ok i) :
    encode i = encodeLS r op o := by
  rw [← ofNat_toNat_eq r, ← ofNat_toNat_eq op]
  unfold decodeOp at h
  split at h <;> cases h <;> simp only [*] <;> rfl

/-- All eight values of `op` are rows of format LS15 (R54). -/
theorem encode_of_decodeOp15 {op : BitVec 3} {o : Ls15Op} {i : Instr} (h : decodeOp15 op o = .ok i) :
    encode i = encodeLS15 op o := by
  rw [← ofNat_toNat_eq op]
  have hlt := op.isLt
  unfold decodeOp15 at h
  generalize op.toNat = k at h hlt ⊢
  interval_cases k <;> cases h <;> rfl

/-- The `op6` field is that of the row that decodes it (R55). -/
theorem encode_of_decodeOp6 {op6 : BitVec 6} {u : DUnit} {s2 d : RegIdx} {f : BitVec 5} {i : Instr}
    (h : decodeOp6 op6 ⟨u, s2, f.toFin, d⟩ ⟨u, s2, f, d⟩ = .ok i) : encode i = encodeDA op6 u d s2 f := by
  rw [← ofNat_toNat_eq op6]
  unfold decodeOp6 at h
  split at h <;> cases h <;> simp only [*] <;> rfl

section Words

variable {w : Word} {i : Instr}

theorem encode_of_decodeLS (hp : fld w 0 1 = 0#1) (hx : fld w 2 2 = 0b01#2) (h : decodeLS w = .ok i) : encode i = w := by
  obtain ⟨hc, u, s, b, hm, hop⟩ := decodeLS_eq_ok h
  have hoff : (lsOperands w u s b).offset.bits = fld w 13 5 := by cases b <;> rfl
  have hmode : encodeMode (lsOperands w u s b).update (lsOperands w u s b).sign (lsOperands w u s b).offset = fld w 9 4 :=
    encodeMode_of_decodeMode hm _ _
  refine ((encode_of_decodeOp hop).trans ?_).trans (append_fields_LS w)
  rw [encodeLS, hoff, hmode, hc, hx, hp]
  simp only [lsOperands, bit_unitOfBit, bit_fileOfBit, encodeReg_regFld]

theorem encode_of_decodeLS15 (hp : fld w 0 1 = 0#1) (hx : fld w 2 2 = 0b11#2) (h : decodeLS15 w = .ok i) :
    encode i = w := by
  unfold decodeLS15 at h
  split at h
  next => cases h
  next hc =>
    refine ((encode_of_decodeOp15 h).trans ?_).trans (append_fields_LS15 w)
    rw [encodeLS15, not_not.mp hc, hx, hp, bit_fileOfBit, bit_base15OfBit, encodeReg_regFld]

theorem encode_of_decodeDA (hp : fld w 0 1 = 0#1) (hx : fld w 2 5 = 0b10000#5) (h : decodeDA w = .ok i) :
    encode i = w := by
  unfold decodeDA at h
  split at h
  next => cases h
  next hc =>
    refine ((encode_of_decodeOp6 (f := fld w 13 5) h).trans ?_).trans (append_fields_DA w)
    rw [encodeDA, not_not.mp hc, hx, hp, bit_unitOfBit, encodeReg_regFld, encodeReg_regFld]

theorem encode_of_decodeM (hp : fld w 0 1 = 0#1) (hx : fld w 2 5 = 0b00000#5) (hy : fld w 7 5 = 0b00001#5)
    (h : decodeM w = .ok i) : encode i = w := by
  unfold decodeM at h
  split at h
  next => cases h
  next hc =>
    cases h
    refine Eq.trans ?_ (append_fields_M w)
    rw [encode, encodeM, not_not.mp hc, hx, hy, hp, ofBool_bit, ofBool_bit, encodeReg_regFld, encodeReg_regFld,
      encodeReg_regFld]

/-- Each format writes back every bit it was told by: the fixed ones by its test, the others as operands. -/
theorem encode_of_decodeFormat (h : decodeFormat w = .ok i) : encode i = w := by
  unfold decodeFormat at h
  split at h
  next => cases h
  next hp =>
    have hp := fld_bit_of_ne_one hp
    split at h
    next hn =>
      cases h
      have hlow : fld w 0 13 = 0#13 := by
        rw [← fld_append w (m := 12) (n := 1) (rfl : 1 = 0 + 1), hn.2, hp]
        rfl
      exact Eq.trans (by rw [encode, hn.1, hlow]) (append_fields_NOP w)
    split at h
    next hx => exact encode_of_decodeLS hp hx h
    split at h
    next hx => exact encode_of_decodeLS15 hp hx h
    split at h
    next hx => exact encode_of_decodeDA hp hx h
    split at h
    next hx => exact encode_of_decodeM hp hx.1 hx.2 h
    cases h

end Words

/-- Settles O2: the format writes the word back, and the checks are well-formedness. -/
theorem encodeOfDecode : Obligations.EncodeOfDecode := by
  intro n w i h
  obtain ⟨hformat, hw⟩ := decode_eq_ok.mp h
  exact ⟨encode_of_decodeFormat hformat, hw⟩

/-! ### Refused words -/

/-- Settles O4: test 1 of R74 comes first. -/
theorem parallelWordsRefused : Obligations.ParallelWordsRefused :=
  fun _ _ hp => decode_of_format_error (decodeFormat_of_parallel hp)

/-- Settles O5: every format but NOP asks `creg` and `z` before anything else. -/
theorem conditionalWordsRefused : Obligations.ConditionalWordsRefused := by
  intro n w hp hformat hcond
  have hc : fld w 28 4 ≠ 0#4 := fld_28_4_ne_zero hcond
  refine decode_of_format_error ?_
  obtain hx | hx | hx | ⟨hx, hy⟩ := hformat
  · exact (decodeFormat_LS hp hx).trans (if_pos hc)
  · exact (decodeFormat_LS15 hp hx).trans (if_pos hc)
  · exact (decodeFormat_DA hp hx).trans (if_pos hc)
  · exact (decodeFormat_M hp hx hy).trans (if_pos hc)

/-- Settles O6: the rows of the table. -/
theorem modeTable : Obligations.ModeTable :=
  ⟨rfl, rfl, rfl, rfl, rfl, rfl, rfl, rfl, rfl, rfl, rfl, rfl⟩

/-- Settles O7: the mode is read before `r` and `op`. -/
theorem reservedModesRefused : Obligations.ReservedModesRefused := by
  intro n w hp hx hc hm
  refine decode_of_format_error ((decodeFormat_LS hp hx).trans ?_)
  rw [decodeLS, if_neg (not_not.mpr hc), decodeMode_reserved hm]

/-- `decodeFormat_LS` and `decodeLS_of_mode` for a mode that is only known to be defined. -/
theorem decodeFormat_LS_of_mode {w : Word} (hp : w.getLsbD 0 = false) (hx : fld w 2 2 = 0b01#2) (hc : fld w 28 4 = 0#4)
    (hm : (decodeMode (fld w 9 4)).isSome = true) : ∃ u s,
    decodeFormat w = decodeOp (fld w 8 1) (fld w 4 3) (lsOperands w u s ((fld w 9 4).getLsbD 2)) := by
  obtain ⟨⟨u, s, b⟩, hmode⟩ := Option.isSome_iff_exists.mp hm
  exact ⟨u, s, byReg_of_decodeMode hmode ▸ (decodeFormat_LS hp hx).trans (decodeLS_of_mode hc hmode)⟩

theorem decodeOp6_reserved {op6 : BitVec 6} (h : op6.toNat < 48 ∨ op6 = 62#6 ∨ op6 = 63#6) (r : DaRegOp) (c : DaCstOp) :
    decodeOp6 op6 r c = .error .reservedEncoding := by
  have hnat : op6.toNat < 48 ∨ op6.toNat = 62 ∨ op6.toNat = 63 :=
    h.imp_right (Or.imp (congrArg BitVec.toNat) (congrArg BitVec.toNat))
  unfold decodeOp6
  split
  case h_15 => rfl
  all_goals omega

/-- Settles O11: the opcode tables hold no such row, and the count of a NOP is checked after its format. -/
theorem reservedEncodingsRefused : Obligations.ReservedEncodingsRefused := by
  refine ⟨fun n w hp hc hx hm hr hop => ?_, fun n cnt hcnt => ?_, fun n w hp hc hx hop6 => ?_⟩
  · obtain ⟨u, s, hformat⟩ := decodeFormat_LS_of_mode hp hx hc hm
    refine decode_of_format_error (hformat.trans ?_)
    obtain hop | hop := hop <;> rw [hr, hop] <;> rfl
  · exact decode_of_check (decodeFormat_nop cnt) (if_pos hcnt)
  · refine decode_of_format_error ((decodeFormat_DA hp hx).trans ?_)
    rw [decodeDA, if_neg (not_not.mpr hc), decodeOp6_reserved hop6]

/-- The registers an LS word names exist where its three register fields do; the offset field counts in the register form
only. -/
theorem regsExist_lsOperands {n : RegsPerFile} {w : Word} {u : Update} {s : Sign} {b : Bool}
    (hdata : (regFld w 23).val < n.count) (hbase : (regFld w 18).val < n.count)
    (hoff : b = true → (regFld w 13).val < n.count) : regsExist n (lsOperands w u s b).regIdx = true := by
  cases b with
  | false => simp [Machine.regsExist_iff, LsOp.regIdx, lsOperands, Offset.regIdx, hbase, hdata]
  | true => simp [Machine.regsExist_iff, LsOp.regIdx, lsOperands, Offset.regIdx, hbase, hdata, hoff rfl]

section OddPair

variable {n : RegsPerFile} {o : LsOp} (hregs : regsExist n o.regIdx = true) (hodd : o.data.idx.val % 2 = 1)

include hregs hodd

theorem checkLoadPair_of_odd : checkLoadPair n o = some .oddPairRegister := by
  simp [checkLoadPair, hregs, hodd]

theorem checkStorePair_of_odd : checkStorePair n o = some .oddPairRegister := by
  simp [checkStorePair, hregs, hodd]

end OddPair

/-- Settles O9: of the checks on a pair only the one on registers comes before the one on the odd register. -/
theorem oddPairRefused : Obligations.OddPairRefused := by
  intro n w hp hc hx hm hr hop hdata hbase hoff h23
  obtain ⟨u, s, hformat⟩ := decodeFormat_LS_of_mode hp hx hc hm
  have hregs := regsExist_lsOperands (u := u) (s := s) hdata hbase hoff
  have hodd := regFld_odd h23
  obtain hop | hop := hop <;> rw [hr, hop] at hformat
  · exact decode_of_check (i := .lddw _) hformat (checkLoadPair_of_odd hregs hodd)
  · exact decode_of_check (i := .stdw _) hformat (checkStorePair_of_odd hregs hodd)

end Sys2Proof

namespace Sys2Proof.Machine

/-! ### Packets of admitted words -/

/-- An admitted word is alone in its packet (R52). -/
theorem fld_p_of_decode {n : RegsPerFile} {w : Word} {i : Instr} (h : decode n w = .ok i) : fld w 0 1 ≠ 1#1 := by
  refine fld_p_ne_one (Bool.eq_false_iff.mpr fun hp => ?_)
  rw [parallelWordsRefused n w hp] at h
  cases h

theorem executePackets_of_single {ws : List Word} (h : ∀ w ∈ ws, fld w 0 1 ≠ 1#1) :
    executePackets ws = ws.map (fun w => [w]) := by
  induction ws with
  | nil => rfl
  | cons w ws ih =>
    rw [List.forall_mem_cons] at h
    rw [executePackets, if_neg h.1, ih h.2, List.map_cons]

theorem programPackets_of_single {ws : List Word} (h : ∀ w ∈ ws, fld w 0 1 ≠ 1#1) :
    programPackets ws = ws.map (fun w => [w]) := by
  have hin : ∀ q ∈ fetchPackets ws, ∀ w ∈ q, w ∈ ws := fun q hq w hw =>
    fetchPackets_flatten ws ▸ List.mem_flatten_of_mem hq hw
  calc programPackets ws
      = ((fetchPackets ws).map (List.map fun w => [w])).flatten := by
        rw [programPackets, List.flatMap_def]
        exact congrArg _ (List.map_congr_left fun q hq => executePackets_of_single fun w hw => h w (hin q hq w hw))
    _ = ws.map (fun w => [w]) := by rw [← List.map_flatten, fetchPackets_flatten]

/-- Settles O58: no admitted word has `p` = 1, and the fetch packets are the program cut into pieces. -/
theorem admittedProgramsHaveSinglePackets : Obligations.AdmittedProgramsHaveSinglePackets := by
  intro n ws h
  have hp : ∀ w ∈ ws, fld w 0 1 ≠ 1#1 := fun w hw => (h w hw).elim fun _ hd => fld_p_of_decode hd
  exact ⟨executePackets_of_single hp, programPackets_of_single hp⟩

/-! ### The constant of an address operand -/

section Constant

variable {len : DataLen} {f : AsmForm} {b : Reg} {k : Nat}

theorem constant_units : (AsmAddr.mk f b (.units k)).constant len = some k := rfl

/-- A byte offset counts units of the data length (R71). -/
theorem constant_bytes_mul : (AsmAddr.mk f b (.bytes (k * bytesOf len))).constant len = some k := by
  have hpos : 0 < bytesOf len := by cases len <;> decide
  exact (if_pos (Nat.mul_mod_left k _)).trans (congrArg some (Nat.mul_div_cancel k hpos))

theorem constant_bytes_of_not_dvd (h : k % bytesOf len ≠ 0) : (AsmAddr.mk f b (.bytes k)).constant len = none :=
  if_neg h

theorem not_reg_of_constant {a : AsmAddr} (h : a.constant len = some k) (r : Reg) : a.offset ≠ .reg r := by
  intro hr
  simp [AsmAddr.constant, hr] at h

end Constant

/-! ### The address operands of format LS -/

section LsOperand

variable {len : DataLen} {unit : DUnit} {b : RegIdx} {d : Reg} {f : AsmForm} {off : AsmOffset} {k : Nat}

/-- A constant takes the offset field if it fits five bits (R66). -/
theorem lsOffset_of_constant {a : AsmAddr} (h : a.constant len = some k) :
    a.lsOffset len unit = if k < 32 then some (.cst (BitVec.ofNat 5 k)) else none := by
  unfold AsmAddr.lsOffset
  split
  next r hr => exact absurd hr (not_reg_of_constant h r)
  next => rw [h]

theorem toLs_of_constant_lt (h : (AsmAddr.mk f ⟨unit.file, b⟩ off).constant len = some k) (hk : k < 32) :
    (AsmAddr.mk f ⟨unit.file, b⟩ off).toLs len unit d =
      some ⟨unit, b, f.mode.1, f.mode.2, .cst (BitVec.ofNat 5 k), d⟩ := by
  rw [AsmAddr.toLs, lsOffset_of_constant h, if_pos hk]
  exact if_pos rfl

theorem toLs_of_constant_ge {a : AsmAddr} (h : a.constant len = some k) (hk : 32 ≤ k) : a.toLs len unit d = none := by
  rw [AsmAddr.toLs, lsOffset_of_constant h, if_neg hk.not_gt]

theorem toLs_of_no_constant (h : (AsmAddr.mk f ⟨unit.file, b⟩ off).constant len = none) (hoff : ∀ r, off ≠ .reg r) :
    (AsmAddr.mk f ⟨unit.file, b⟩ off).toLs len unit d = none := by
  cases off with
  | reg r => exact absurd rfl (hoff r)
  | absent | units | bytes => simp only [AsmAddr.toLs, AsmAddr.lsOffset, h]

theorem toLs_reg (r : RegIdx) : (AsmAddr.mk f ⟨unit.file, b⟩ (.reg ⟨unit.file, r⟩)).toLs len unit d =
    some ⟨unit, b, f.mode.1, f.mode.2, .reg r, d⟩ := by
  simp [AsmAddr.toLs, AsmAddr.lsOffset]

/-- Base and offset register are in the file of the unit (R115). -/
theorem toLs_of_other_file {a : AsmAddr} (h : a.base.file ≠ unit.file ∨ ∃ r, a.offset = .reg r ∧ r.file ≠ unit.file) :
    a.toLs len unit d = none := by
  obtain hb | ⟨r, hr, hf⟩ := h
  · unfold AsmAddr.toLs
    cases a.lsOffset len unit with
    | none => rfl
    | some off => exact if_neg hb
  · simp [AsmAddr.toLs, AsmAddr.lsOffset, hr, hf]

end LsOperand

/-! ### The address operands of format LS15 -/

section Ls15Operand

variable {len : DataLen} {d : Reg} {f : AsmForm} {k : Nat}

/-- A constant takes the 15-bit field of an unmodified base with positive offset if it fits (R114). -/
theorem toLs15_of_constant_lt {b : Base15} {off : AsmOffset} (hf : f.mode = (.keep, .add))
    (h : (AsmAddr.mk f b.reg off).constant len = some k) (hoff : off ≠ .absent) (hk : k < 2 ^ 15) :
    (AsmAddr.mk f b.reg off).toLs15 len d = some ⟨b, BitVec.ofNat 15 k, d⟩ := by
  rw [AsmAddr.toLs15, if_pos ⟨hf, hoff⟩, h]
  cases b <;> exact if_pos hk

theorem toLs15_of_constant_ge {a : AsmAddr} (h : a.constant len = some k) (hk : 2 ^ 15 ≤ k) :
    a.toLs15 len d = none := by
  rw [AsmAddr.toLs15, h]
  simp only [if_neg hk.not_gt, ite_self]

theorem toLs15_of_no_constant {a : AsmAddr} (h : a.constant len = none) : a.toLs15 len d = none := by
  rw [AsmAddr.toLs15, h]
  exact ite_self none

theorem toLs15_of_mode {a : AsmAddr} (h : a.form.mode ≠ (.keep, .add)) : a.toLs15 len d = none :=
  if_neg fun hm => h hm.1

theorem toLs15_absent {a : AsmAddr} (h : a.offset = .absent) : a.toLs15 len d = none :=
  if_neg fun hm => hm.2 h

theorem toLs15_of_base {a : AsmAddr} (h : ∀ b : Base15, a.base ≠ b.reg) : a.toLs15 len d = none := by
  have h14 : a.base ≠ ⟨.B, 14⟩ := h .B14
  have h15 : a.base ≠ ⟨.B, 15⟩ := h .B15
  cases hc : a.constant len with
  | none => exact toLs15_of_no_constant hc
  | some k =>
    rw [AsmAddr.toLs15, hc]
    simp only [if_neg h14, if_neg h15, ite_self]

end Ls15Operand

theorem mode_ne_of_form {f : AsmForm} (h : f ≠ .plus ∧ f ≠ .plain) : f.mode ≠ (.keep, .add) := by
  cases f with
  | plus => exact absurd rfl h.1
  | plain => exact absurd rfl h.2
  | minus | preInc | preDec | postInc | postDec => decide

/-- Settles O56: each clause is the constant of the operand, then the condition of the format on it. -/
theorem assemblerAddressOperands : Obligations.AssemblerAddressOperands := by
  refine ⟨fun len unit b d => ⟨fun row hrow => ?_, ?_⟩, fun len unit a d => toLs_of_other_file,
    fun len b d f hf => ?_, fun len a d h => ?_⟩
  · have hmode : row.1.mode = row.2 := by revert row; decide
    rw [← hmode]
    refine ⟨fun k hk => ⟨?_, ?_⟩, fun k hk => ⟨?_, ?_⟩, fun k hk => ?_, toLs_reg⟩
    · exact toLs_of_constant_lt constant_units hk
    · exact toLs_of_constant_lt constant_bytes_mul hk
    · exact toLs_of_constant_ge constant_units hk
    · exact toLs_of_constant_ge constant_bytes_mul hk
    · exact toLs_of_no_constant (constant_bytes_of_not_dvd hk) nofun
  · exact ⟨toLs_of_constant_lt rfl (by decide), toLs_of_constant_lt rfl (by decide), toLs_of_constant_lt rfl (by decide),
      toLs_of_constant_lt rfl (by decide), toLs_of_constant_lt rfl (by decide), toLs_of_no_constant rfl nofun,
      toLs_of_no_constant rfl nofun⟩
  · have hmode : f.mode = (.keep, .add) := by revert f; decide
    refine ⟨fun k hk => ⟨?_, ?_⟩, fun k hk => ⟨?_, ?_⟩, fun k hk => ?_⟩
    · exact toLs15_of_constant_lt hmode constant_units nofun hk
    · exact toLs15_of_constant_lt hmode constant_bytes_mul nofun hk
    · exact toLs15_of_constant_ge constant_units hk
    · exact toLs15_of_constant_ge constant_bytes_mul hk
    · exact toLs15_of_no_constant (constant_bytes_of_not_dvd hk)
  · obtain hf | hb | ha | ⟨r, hr⟩ := h
    · exact toLs15_of_mode (mode_ne_of_form hf)
    · exact toLs15_of_base hb
    · exact toLs15_absent ha
    · exact toLs15_of_no_constant (by rw [AsmAddr.constant, hr])

end Sys2Proof.Machine
end

section
/-! PROOFS. Address generation (40_address_generation.md): linear and circular arithmetic, the bytes of an access, and the
address generator. -/

namespace Sys2Proof.Machine

/-! ### Linear addresses -/

theorem lin_add_toNat (b off : Word) : (lin b off .add).toNat = (b.toNat + off.toNat) % 2 ^ 32 := BitVec.toNat_add b off

theorem lin_sub_toNat (b off : Word) : (lin b off .sub).toNat = (b.toNat + 2 ^ 32 - off.toNat) % 2 ^ 32 := by
  have hsub : (lin b off .sub).toNat = (2 ^ 32 - off.toNat + b.toNat) % 2 ^ 32 := BitVec.toNat_sub b off
  rw [hsub, Nat.add_comm, Nat.add_sub_assoc off.isLt.le]

/-- Settles O18, by the two sums of R81 read as natural numbers. -/
theorem linearArithmetic : Obligations.LinearArithmetic :=
  fun b off => ⟨lin_add_toNat b off, lin_sub_toNat b off⟩

theorem lin_sub_lin_add (b off : Word) : lin (lin b off .add) off .sub = b := BitVec.add_sub_cancel b off

theorem setWidth_sub {n : Nat} (hn : n ≤ 32) (x y : Word) : (x - y).setWidth n = x.setWidth n - y.setWidth n := by
  refine eq_sub_of_add_eq ?_
  rw [← BitVec.setWidth_add _ _ hn, BitVec.sub_add_cancel]

/-- The low bits of a linear result depend on the low bits of the base and of the offset only. -/
theorem setWidth_lin_congr {n : Nat} (hn : n ≤ 32) {b b' off off' : Word} (hb : b.setWidth n = b'.setWidth n)
    (hoff : off.setWidth n = off'.setWidth n) (sgn : Sign) :
    (lin b off sgn).setWidth n = (lin b' off' sgn).setWidth n := by
  cases sgn with
  | add => simp only [lin, BitVec.setWidth_add _ _ hn, hb, hoff]
  | sub => simp only [lin, setWidth_sub hn, hb, hoff]

/-! ### Circular addresses: the block of the base, the low bits of the linear result -/

theorem circ_getLsbD {N j : Nat} (hN : N ≤ 31) (hj : j < 32) (b off : Word) (sgn : Sign) :
    (circ b off sgn (some N)).getLsbD j = if j ≤ N then (lin b off sgn).getLsbD j else b.getLsbD j := by
  simp only [circ, BitVec.getLsbD_or, BitVec.getLsbD_and, BitVec.getLsbD_not, blockMask_getLsbD hN]
  by_cases hjN : j ≤ N <;> simp [hjN, hj]

/-- Settles O19, bit by bit from R82. -/
theorem circularArithmetic : Obligations.CircularArithmetic :=
  fun b off sgn => ⟨rfl, fun _ hN _ hj => circ_getLsbD hN hj b off sgn⟩

/-- An address is its block and its place inside the block. -/
theorem eq_of_block_of_setWidth {N : Nat} {x y : Word} (hblock : x.toNat / 2 ^ (N + 1) = y.toNat / 2 ^ (N + 1))
    (hlow : x.setWidth (N + 1) = y.setWidth (N + 1)) : x = y := by
  have hmod : x.toNat % 2 ^ (N + 1) = y.toNat % 2 ^ (N + 1) := by
    simpa only [BitVec.toNat_setWidth] using congrArg BitVec.toNat hlow
  refine BitVec.eq_of_toNat_eq ?_
  rw [← Nat.div_add_mod x.toNat, hblock, hmod, Nat.div_add_mod]

section Block

variable {N : Nat} (hN : N ≤ 31)
include hN

theorem circ_block (b off : Word) (sgn : Sign) :
    (circ b off sgn (some N)).toNat / 2 ^ (N + 1) = b.toNat / 2 ^ (N + 1) := by
  rw [circ_toNat hN, Nat.mul_comm, Nat.mul_add_div (Nat.two_pow_pos _), Nat.mod_div_self, Nat.add_zero]

theorem circ_setWidth (b off : Word) (sgn : Sign) :
    (circ b off sgn (some N)).setWidth (N + 1) = (lin b off sgn).setWidth (N + 1) := by
  refine BitVec.eq_of_toNat_eq ?_
  rw [BitVec.toNat_setWidth, BitVec.toNat_setWidth, circ_toNat hN, Nat.mul_add_mod', Nat.mod_mod]

theorem circ_eq_of_setWidth_lin {b x off : Word} {sgn : Sign} (hblock : b.toNat / 2 ^ (N + 1) = x.toNat / 2 ^ (N + 1))
    (hlow : (lin b off sgn).setWidth (N + 1) = x.setWidth (N + 1)) : circ b off sgn (some N) = x :=
  eq_of_block_of_setWidth ((circ_block hN b off sgn).trans hblock) ((circ_setWidth hN b off sgn).trans hlow)

/-- Offsets with the same low bits give the same circular address. -/
theorem circ_congr_offset {off off' : Word} (h : off.setWidth (N + 1) = off'.setWidth (N + 1)) (b : Word) (sgn : Sign) :
    circ b off sgn (some N) = circ b off' sgn (some N) :=
  circ_eq_of_setWidth_lin hN (circ_block hN b off' sgn).symm
    ((setWidth_lin_congr (Nat.succ_le_succ hN) rfl h sgn).trans (circ_setWidth hN b off' sgn).symm)

/-- R94 (a): the address stays in the block of the base. -/
theorem circ_mem_block (b off : Word) (sgn : Sign) :
    b.toNat / 2 ^ (N + 1) * 2 ^ (N + 1) ≤ (circ b off sgn (some N)).toNat ∧
      (circ b off sgn (some N)).toNat < b.toNat / 2 ^ (N + 1) * 2 ^ (N + 1) + 2 ^ (N + 1) := by
  rw [circ_toNat hN]
  exact ⟨Nat.le_add_right _ _, Nat.add_lt_add_left (Nat.mod_lt _ (Nat.two_pow_pos _)) _⟩

/-- R94 (b): whole blocks in the offset have no low bits. -/
theorem setWidth_add_blocks (off : Word) (k : Nat) :
    (off + BitVec.ofNat 32 (k * 2 ^ (N + 1))).setWidth (N + 1) = off.setWidth (N + 1) := by
  have hle : N + 1 ≤ 32 := Nat.succ_le_succ hN
  have hzero : BitVec.ofNat (N + 1) (k * 2 ^ (N + 1)) = 0#(N + 1) := BitVec.eq_of_toNat_eq (Nat.mul_mod_left _ _)
  rw [BitVec.setWidth_add _ _ hle, BitVec.setWidth_ofNat_of_le hle, hzero, BitVec.add_zero]

/-- R94 (c): the low bits of the difference are those of the base, whose block was never left. -/
theorem circ_sub_circ_add (b off : Word) : circ (circ b off .add (some N)) off .sub (some N) = b := by
  refine circ_eq_of_setWidth_lin hN (circ_block hN b off .add) ?_
  calc (lin (circ b off .add (some N)) off .sub).setWidth (N + 1)
      = (lin (lin b off .add) off .sub).setWidth (N + 1) :=
        setWidth_lin_congr (Nat.succ_le_succ hN) (circ_setWidth hN b off .add) rfl .sub
    _ = b.setWidth (N + 1) := by rw [lin_sub_lin_add]

end Block

/-- R94 (d): the block of N = 31 is the whole address space. -/
theorem circ_thirtyOne (b off : Word) (sgn : Sign) : circ b off sgn (some 31) = lin b off sgn :=
  circ_eq_of_setWidth_lin le_rfl ((Nat.div_eq_of_lt b.isLt).trans (Nat.div_eq_of_lt (lin b off sgn).isLt).symm) rfl

/-- R94 (e): in a block of two bytes an even offset is as good as none. -/
theorem circ_zero_of_even {off : Word} (h : off.toNat % 2 = 0) (b : Word) (sgn : Sign) : circ b off sgn (some 0) = b := by
  have hlow : off.setWidth 1 = (0#32).setWidth 1 := BitVec.eq_of_toNat_eq h
  rw [circ_congr_offset (Nat.zero_le 31) hlow, circ_zero]

/-- Settles O20: the block of the base is kept, and inside it the low bits obey linear arithmetic. -/
theorem circularLaws : Obligations.CircularLaws := fun b off _ hN =>
  ⟨circ_mem_block hN b off, fun sgn k => circ_congr_offset hN (setWidth_add_blocks hN off k) b sgn,
    circ_sub_circ_add hN b off, circ_thirtyOne b off, fun sgn h => circ_zero_of_even h b sgn⟩

/-! ### The bytes of an access -/

theorem byteAddr_none_toNat (ea : Word) (k : Nat) : (byteAddr ea none k).toNat = (ea.toNat + k) % 2 ^ 32 := by
  rw [byteAddr_none, BitVec.toNat_add, BitVec.toNat_ofNat, Nat.add_mod_mod]

/-- Settles O23: the place inside the block is that of the linear byte, since the block divides the address space. -/
theorem nonAlignedByteSequence : Obligations.NonAlignedByteSequence := by
  refine fun ea k => ⟨byteAddr_none_toNat ea k, fun N hN => ?_⟩
  have hdvd : 2 ^ (N + 1) ∣ 2 ^ 32 := Nat.pow_dvd_pow 2 (Nat.succ_le_succ hN)
  calc (byteAddr ea (some N) k).toNat
      = ea.toNat / 2 ^ (N + 1) * 2 ^ (N + 1) + (byteAddr ea none k).toNat % 2 ^ (N + 1) := circ_toNat hN _ _ _
    _ = ea.toNat / 2 ^ (N + 1) * 2 ^ (N + 1) + (ea.toNat + k) % 2 ^ (N + 1) := by
      rw [byteAddr_none_toNat, Nat.mod_mod_of_dvd _ hdvd]

/-! ### The address generator -/

/-- Scaling by the data length is multiplication by its bytes (R80). -/
theorem scale_eq_mul (len : DataLen) (v : Word) : scale len v = v * BitVec.ofNat 32 (bytesOf len) := by
  have hpow : BitVec.twoPow 32 (shiftOf len) = BitVec.ofNat 32 (2 ^ shiftOf len) :=
    BitVec.eq_of_toNat_eq (BitVec.toNat_twoPow 32 _)
  rw [scale, BitVec.shiftLeft_eq_mul_twoPow, bytesOf_eq_two_pow, hpow]

theorem scale_cst (len : DataLen) (s : State) (f : RegFile) (c : BitVec 5) :
    scale len (s.offsetOperand f (.cst c)) = BitVec.ofNat 32 (c.toNat * bytesOf len) := by
  rw [scale_eq_mul, BitVec.ofNat_mul, BitVec.ofNat_toNat, State.offsetOperand]

theorem scale_reg (len : DataLen) (s : State) (f : RegFile) (q : RegIdx) :
    scale len (s.offsetOperand f (.reg q)) = s.reg ⟨f, q⟩ * BitVec.ofNat 32 (bytesOf len) :=
  scale_eq_mul len _

/-- Settles O21: the scaled offset operand is the product of R80, and `agen` is the table of R87. -/
theorem addressGenerator : Obligations.AddressGenerator := by
  intro len o s N _ off r
  have hoff : scale len (s.offsetOperand o.unit.file o.offset) = off := by
    cases ho : o.offset with
    | cst c => simp only [off, ho, scale_cst]
    | reg q => simp only [off, ho, scale_reg]
  refine ⟨fun hu => ?_, fun hu => ?_, fun hu => ?_⟩ <;> rw [lsEA, lsNewBase, hu, hoff] <;> exact ⟨rfl, rfl⟩

end Sys2Proof.Machine
end

section
/-! PROOFS. Loads and stores (41_load_store.md): loads into the base they modify, the completion of every load and store, and
the instructions refused by name. -/

namespace Sys2Proof

/-! ### A load into the base it modifies -/

theorem LsOp.writesOwnBase_of_modified {o : LsOp} {dsts : List Reg} (hu : o.update ≠ .keep) (hmem : o.base ∈ dsts) :
    o.writesOwnBase dsts = true := by
  simp [LsOp.writesOwnBase, hu, hmem]

theorem LsOp.writesOwnBase_of_keep {o : LsOp} (hu : o.update = .keep) (dsts : List Reg) : o.writesOwnBase dsts = false := by
  simp [LsOp.writesOwnBase, hu]

/-- The loads of one register at an operand of format LS (R102 to R106, R108). -/
def LsOp.singleLoads (o : LsOp) : List Instr := [.ldb o, .ldbu o, .ldh o, .ldhu o, .ldw o, .ldnw o]

/-- They have one check in common. -/
theorem check_of_mem_singleLoads {o : LsOp} {i : Instr} (hi : i ∈ o.singleLoads) (n : RegsPerFile) :
    check n i = checkLoad n o := by
  simp only [LsOp.singleLoads, List.mem_cons, List.not_mem_nil, or_false] at hi
  obtain rfl | rfl | rfl | rfl | rfl | rfl := hi <;> rfl

section ModifiedBase

variable {n : RegsPerFile} {o : LsOp} (hregs : regsExist n o.regIdx = true)
include hregs

theorem checkLoad_of_modifiedBase (hu : o.update ≠ .keep) (hdata : o.data = o.base) :
    checkLoad n o = some .dstIsModifiedBase := by
  have hown : o.writesOwnBase [o.data] = true := LsOp.writesOwnBase_of_modified hu (by simp [hdata])
  simp [checkLoad, hregs, hown]

theorem checkLoad_of_keep (hu : o.update = .keep) : checkLoad n o = none :=
  checkLoad_eq_none.mpr ⟨hregs, LsOp.writesOwnBase_of_keep hu _⟩

variable (heven : o.data.idx.val % 2 = 0)
include heven

theorem checkLoadPair_of_modifiedBase (hu : o.update ≠ .keep) (hdata : o.data = o.base ∨ o.data.pairOdd = o.base) :
    checkLoadPair n o = some .dstIsModifiedBase := by
  have hown : o.writesOwnBase [o.data, o.data.pairOdd] = true :=
    LsOp.writesOwnBase_of_modified hu (by simpa [eq_comm] using hdata)
  simp [checkLoadPair, hregs, heven, hown]

theorem checkLoadPair_of_keep (hu : o.update = .keep) : checkLoadPair n o = none :=
  checkLoadPair_eq_none.mpr ⟨hregs, heven, LsOp.writesOwnBase_of_keep hu _⟩

end ModifiedBase

/-- An encoded instruction is decoded to itself when no check refuses it. -/
theorem decode_encode_of_check {n : RegsPerFile} {i : Instr} (hc : check n i = none) : decode n (encode i) = .ok i :=
  decodeOfEncode n i (check_eq_none.mp hc)

/-- Settles O10: with registers that exist (and an even pair) the check of R116 is the one left, and it asks for a mode that
writes the base. -/
theorem loadIntoModifiedBaseRefused : Obligations.LoadIntoModifiedBaseRefused := by
  intro n o hregs
  refine ⟨fun hdata => ⟨fun hu i hi => ?_, fun hu i hi => ?_⟩, fun heven hdata => ⟨fun hu => ?_, fun hu => ?_⟩⟩
  · exact decode_of_check (decodeFormat_encode i)
      ((check_of_mem_singleLoads hi n).trans (checkLoad_of_modifiedBase hregs hu hdata))
  · exact decode_encode_of_check ((check_of_mem_singleLoads hi n).trans (checkLoad_of_keep hregs hu))
  · exact decode_of_check (decodeFormat_encode _) (checkLoadPair_of_modifiedBase hregs heven hu hdata)
  · exact decode_encode_of_check (i := .lddw o) (checkLoadPair_of_keep hregs heven hu)

end Sys2Proof

namespace Sys2Proof.Machine

/-! ### LOAD by data length

The address operand is that of either format, and `f` says how the datum fills the register. -/

section Load

variable {ad : Addressing} {s : State} {N : Option Nat} {b : Nat → Byte} {al : Bool} (hN : blk s.amr ad.base = .ok N)
include hN

theorem load_byte_of_holds (h : Holds s (agen ad.update ad.sign (s.reg ad.base) ad.off N).1 (b 0)) (r : Reg)
    (f : Byte → Word) :
    load .byte al (fun v => [(r, f (v.setWidth 8))]) ad s =
      .next (issued s (baseWrites s ad.base (agen ad.update ad.sign (s.reg ad.base) ad.off N).2 ++
        [⟨s.t + 5, r, f (b 0)⟩])) := by
  rw [← datumOf_byte s.cfg.endian b]
  refine load_of hN (blockFits_two N (by decide)) (fun _ => Nat.mod_one _) fun k hk => ?_
  rwa [Nat.lt_one_iff.mp hk, byteAddr_zero]

theorem load_half_of_holds (ha : (agen ad.update ad.sign (s.reg ad.base) ad.off N).1.toNat % 2 = 0)
    (h : ∀ k < 2, Holds s (byteAddr (agen ad.update ad.sign (s.reg ad.base) ad.off N).1 N k) (b k)) (r : Reg)
    (f : BitVec 16 → Word) :
    load .half al (fun v => [(r, f (v.setWidth 16))]) ad s =
      .next (issued s (baseWrites s ad.base (agen ad.update ad.sign (s.reg ad.base) ad.off N).2 ++
        [⟨s.t + 5, r, f (halfOf s.cfg.endian b)⟩])) := by
  rw [← datumOf_half]
  exact load_of hN (blockFits_two N le_rfl) (fun _ => ha) h

theorem load_word_of_holds (hf : BlockFits N 4)
    (ha : al = true → (agen ad.update ad.sign (s.reg ad.base) ad.off N).1.toNat % 4 = 0)
    (h : ∀ k < 4, Holds s (byteAddr (agen ad.update ad.sign (s.reg ad.base) ad.off N).1 N k) (b k)) (r : Reg) :
    load .word al (fun v => [(r, lowWord v)]) ad s =
      .next (issued s (baseWrites s ad.base (agen ad.update ad.sign (s.reg ad.base) ad.off N).2 ++
        [⟨s.t + 5, r, wordOf s.cfg.endian b⟩])) := by
  rw [← datumOf_word]
  exact load_of hN hf ha h

end Load

/-! ### The loads of format LS -/

/-- Settles O24: LDB is LOAD of a byte with sign extension, as LDBU is with zero extension. -/
theorem byteLoadsComplete : Obligations.ByteLoadsComplete := fun o s _ b hN h =>
  ⟨load_byte_of_holds (al := true) (ad := lsAddressing .byte o s) (b := fun _ => b) hN h o.data (·.signExtend 32),
    exec_ldbu_of_holds hN h⟩

/-- Settles O25: LDH and LDHU are LOAD of a halfword with the two extensions. -/
theorem halfwordLoadsComplete : Obligations.HalfwordLoadsComplete := by
  intro o s N b hN ha h
  have hload := load_half_of_holds (ad := lsAddressing .half o s) (al := true) hN ha h o.data
  exact ⟨hload (·.signExtend 32), hload (·.setWidth 32)⟩

/-- Settles O26: LDNW is LDW without the alignment condition. -/
theorem wordLoadsComplete : Obligations.WordLoadsComplete := by
  intro o s N b hN hf h
  exact ⟨fun ha => load_word_of_holds (ad := lsAddressing .word o s) hN hf (fun _ => ha) h o.data,
    load_word_of_holds (al := false) (ad := lsAddressing .word o s) hN hf nofun h o.data⟩

/-- Settles O27: the pair takes the two words of the doubleword (R16). -/
theorem doublewordLoadCompletes : Obligations.DoublewordLoadCompletes := by
  intro o s N b hN hf ha h
  have hlow : (dwordOf s.cfg.endian b).extractLsb' 0 32 = lowWord (dwordOf s.cfg.endian b) :=
    (BitVec.setWidth_eq_extractLsb' (by decide)).symm
  rw [hlow, ← datumOf_dword]
  exact load_of (len := .dword) (ad := lsAddressing .dword o s) hN hf (fun _ => ha) h

/-! ### The loads of format LS15 -/

/-- Settles O28: the base is linear and kept (R91, R114), so EA is the sum and no base write is issued. -/
theorem fifteenBitLoadsComplete : Obligations.FifteenBitLoadsComplete := by
  intro o s b
  have hN := blk_base15 s.amr o.base
  refine ⟨fun h => ?_, fun ha h => ?_, fun ha h => ?_⟩
  · have hload := load_byte_of_holds (ad := ls15Addressing .byte o) (al := true) hN h o.data
    exact ⟨hload (·.signExtend 32), hload (·.setWidth 32)⟩
  · have hload := load_half_of_holds (ad := ls15Addressing .half o) (al := true) hN ha h o.data
    exact ⟨hload (·.signExtend 32), hload (·.setWidth 32)⟩
  · exact load_word_of_holds (ad := ls15Addressing .word o) (al := true) hN trivial (fun _ => ha) h o.data

/-! ### STORE of one register -/

/-- Only the addresses and bytes below `n` count. -/
theorem StoresBytes.congr {s t : State} {addr addr' : Nat → Word} {n : Nat} {d d' : Nat → Byte}
    (h : StoresBytes s t addr n d) (haddr : ∀ k < n, addr k = addr' k) (hd : ∀ k < n, d k = d' k) :
    StoresBytes s t addr' n d' := by
  obtain ⟨hstored, hframe⟩ := h
  refine ⟨fun k hk => ?_, fun a ha => hframe a fun k hk => ?_⟩
  · rw [← haddr k hk, ← hd k hk]
    exact hstored k hk
  · rw [haddr k hk]
    exact ha k hk

/-- A single byte is the low byte in either byte order. -/
theorem byteOf_one (e : Endian) (v : Word) : byteOf e 1 v 0 = v.extractLsb' 0 8 := by cases e <;> rfl

section Store

variable {len : DataLen} {ad : Addressing} {s : State} {N : Option Nat} {al : Bool} (hN : blk s.amr ad.base = .ok N)
include hN

/-- STORE of a register stores its low bytes. -/
theorem store_reg_of_allocated (hlen : bytesOf len ≤ 4) (hf : BlockFits N (bytesOf len))
    (ha : al = true → (agen ad.update ad.sign (s.reg ad.base) ad.off N).1.toNat % bytesOf len = 0)
    (h : ∀ k < bytesOf len, Allocated s (byteAddr (agen ad.update ad.sign (s.reg ad.base) ad.off N).1 N k)) (v : Word) :
    ∃ t, store len al (v.setWidth 64) ad s = .next t ∧
      issuedWithMem s t (baseWrites s ad.base (agen ad.update ad.sign (s.reg ad.base) ad.off N).2) ∧
      StoresBytes s t (byteAddr (agen ad.update ad.sign (s.reg ad.base) ad.off N).1 N) (bytesOf len)
        (byteOf s.cfg.endian (bytesOf len) v) := by
  obtain ⟨t, ht, hshape, hstored⟩ := store_of (d := v.setWidth 64) hN hf ha h
  exact ⟨t, ht, hshape, hstored.congr (fun _ _ => rfl) fun k hk => byteOf_setWidth _ hlen v hk⟩

/-- The one byte of a byte store stands at EA. -/
theorem store_byte_of_allocated (h : Allocated s (agen ad.update ad.sign (s.reg ad.base) ad.off N).1) (v : Word) :
    ∃ t, store .byte al (v.setWidth 64) ad s = .next t ∧
      issuedWithMem s t (baseWrites s ad.base (agen ad.update ad.sign (s.reg ad.base) ad.off N).2) ∧
      StoresBytes s t (fun _ => (agen ad.update ad.sign (s.reg ad.base) ad.off N).1) 1 (fun _ => v.extractLsb' 0 8) := by
  obtain ⟨t, ht, hshape, hstored⟩ := store_reg_of_allocated (len := .byte) (al := al) hN (by decide)
    (blockFits_two N (by decide)) (fun _ => Nat.mod_one _)
    (fun k hk => by rwa [Nat.lt_one_iff.mp hk, byteAddr_zero]) v
  refine ⟨t, ht, hshape, hstored.congr (fun k hk => ?_) fun k hk => ?_⟩ <;> obtain rfl := Nat.lt_one_iff.mp hk
  · exact byteAddr_zero _ N
  · exact byteOf_one _ v

end Store

/-! ### The stores -/

/-- Settles O29: STNW is STW without the alignment condition. -/
theorem singleRegisterStoresComplete : Obligations.SingleRegisterStoresComplete := by
  intro o s N hN
  refine ⟨fun h => ?_, fun ha h => ?_, fun hf h => ⟨fun ha => ?_, ?_⟩⟩
  · exact store_byte_of_allocated (ad := lsAddressing .byte o s) hN h (s.reg o.data)
  · exact store_reg_of_allocated (len := .half) (ad := lsAddressing .half o s) hN (by decide) (blockFits_two N le_rfl)
      (fun _ => ha) h (s.reg o.data)
  · exact store_reg_of_allocated (len := .word) (ad := lsAddressing .word o s) hN le_rfl hf (fun _ => ha) h (s.reg o.data)
  · exact store_reg_of_allocated (al := false) (len := .word) (ad := lsAddressing .word o s) hN le_rfl hf nofun h
      (s.reg o.data)

/-- Settles O30: the datum of a pair is the odd register over the even one (R112). -/
theorem doublewordStoreCompletes : Obligations.DoublewordStoreCompletes := by
  intro o s N hN hf ha h
  exact store_of (len := .dword) (d := s.pair o.data) (ad := lsAddressing .dword o s) hN hf (fun _ => ha) h

/-- Settles O31: the base is linear and kept (R91, R114), as for the loads of this format. -/
theorem fifteenBitStoresComplete : Obligations.FifteenBitStoresComplete := by
  intro o s
  have hN := blk_base15 s.amr o.base
  refine ⟨fun h => ?_, fun ha h => ?_, fun ha h => ?_⟩
  · exact store_byte_of_allocated (ad := ls15Addressing .byte o) hN h (s.reg o.data)
  · exact store_reg_of_allocated (len := .half) (ad := ls15Addressing .half o) hN (by decide) trivial (fun _ => ha) h
      (s.reg o.data)
  · exact store_reg_of_allocated (len := .word) (ad := ls15Addressing .word o) hN le_rfl trivial (fun _ => ha) h
      (s.reg o.data)

/-! ### The instructions refused by name -/

/-- Settles O37: none of the three looks at its operands or at the state. -/
theorem namedInstructionsRefused : Obligations.NamedInstructionsRefused := fun _ _ _ => ⟨rfl, rfl, rfl⟩

end Sys2Proof.Machine
end

section
/-! PROOFS. ADDA and SUBA (42_adda_suba.md): ADDRADD with an operand of either kind, and the completion of the fourteen forms. -/

namespace Sys2Proof.Machine

/-! ### ADDRADD by data length -/

/-- The offset of a byte form is the operand itself (R80). -/
theorem scale_byte (v : Word) : scale .byte v = v := BitVec.shiftLeft_zero v

section AddrAdd

variable {unit : DUnit} {src2 dst : RegIdx} {off : Offset} {s : State} {N : Option Nat} {x : Word}
  (hN : blk s.amr ⟨unit.file, src2⟩ = .ok N) (hx : s.offsetOperand unit.file off = x)
include hN hx

/-- ADDRADD completes whenever AMR gives the base a selection (R130). -/
theorem addrAdd_of_operand (len : DataLen) (sgn : Sign) :
    addrAdd len sgn unit src2 off dst s =
      .next (issued s [⟨s.t + 1, ⟨unit.file, dst⟩, circ (s.reg ⟨unit.file, src2⟩) (scale len x) sgn N⟩]) :=
  addrAdd_eq_next.mpr ⟨N, hN, by rw [hx]⟩

theorem addrAdd_byte_of_operand (sgn : Sign) :
    addrAdd .byte sgn unit src2 off dst s =
      .next (issued s [⟨s.t + 1, ⟨unit.file, dst⟩, circ (s.reg ⟨unit.file, src2⟩) x sgn N⟩]) := by
  rw [addrAdd_of_operand hN hx, scale_byte]

end AddrAdd

/-! ### The register and the constant forms -/

/-- Settles O33: each form is ADDRADD (R131 to R137) with the register `src1` as operand. -/
theorem addressArithmeticRegisterForms : Obligations.AddressArithmeticRegisterForms := by
  intro o s N hN
  have hoff : s.offsetOperand o.unit.file (.reg o.src1) = s.reg ⟨o.unit.file, o.src1⟩ := rfl
  have hbyte := addrAdd_byte_of_operand (dst := o.dst) hN hoff
  have hlen := addrAdd_of_operand (dst := o.dst) hN hoff
  exact ⟨hbyte .add, hlen .half .add, hlen .word .add, hlen .dword .add, hbyte .sub, hlen .half .sub, hlen .word .sub⟩

/-- Settles O34: each form is ADDRADD with `ucst5`, zero-extended (R66), as operand. -/
theorem addressArithmeticConstantForms : Obligations.AddressArithmeticConstantForms := by
  intro o s N hN
  have hoff : s.offsetOperand o.unit.file (.cst o.ucst5) = BitVec.ofNat 32 o.ucst5.toNat :=
    (BitVec.ofNat_toNat 32 o.ucst5).symm
  have hbyte := addrAdd_byte_of_operand (dst := o.dst) hN hoff
  have hlen := addrAdd_of_operand (dst := o.dst) hN hoff
  exact ⟨hbyte .add, hlen .half .add, hlen .word .add, hlen .dword .add, hbyte .sub, hlen .half .sub, hlen .word .sub⟩

end Sys2Proof.Machine
end

section
/-! PROOFS. NOP (43_nop_mpyh.md): the words of no format, the completion of NOP, and the cycles it occupies. -/

namespace Sys2Proof

/-! ### Words of no format -/

theorem decodeFormat_unrecognised {w : Word} (hp : w.getLsbD 0 = false)
    (hnop : ¬ (fld w 17 15 = 0#15 ∧ fld w 1 12 = 0#12)) (hLS : fld w 2 2 ≠ 0b01#2) (hLS15 : fld w 2 2 ≠ 0b11#2)
    (hDA : fld w 2 5 ≠ 0b10000#5) (hM : ¬ (fld w 2 5 = 0b00000#5 ∧ fld w 7 5 = 0b00001#5)) :
    decodeFormat w = .error (.notInScope w) := by
  rw [decodeFormat, if_neg (fld_p_ne_one hp), if_neg hnop, if_neg hLS, if_neg hLS15, if_neg hDA, if_neg hM]

/-- Settles O12: tests 1 to 6 of R74 fail, so test 7 answers. -/
theorem unrecognisedWordsRefused : Obligations.UnrecognisedWordsRefused :=
  fun _ _ hp hnop hLS hLS15 hDA hM => decode_of_format_error (decodeFormat_unrecognised hp hnop hLS hLS15 hDA hM)

end Sys2Proof

namespace Sys2Proof.Machine

/-! ### NOP -/

/-- Settles O35: NOP computes nothing, so its meaning (R150) is already the state claimed. -/
theorem nopCompletes : Obligations.NopCompletes := fun _ _ => rfl

/-! ### The steps of a running state -/

/-- With nothing pending, landing changes nothing. -/
theorem land_of_pending_nil {s : State} (h : s.pending = []) : land s = .next s := by
  have hdue : s.due = [] := by simp [State.due, h]
  have hlanded : s.landed = s := by rw [State.landed, hdue, State.commit, h, List.filter_nil, ← h]
  exact land_eq_next.mpr ⟨by simp [hdue], hlanded.symm⟩

theorem issue_of_nopLeft_ne_zero {s : State} (h : s.nopLeft ≠ 0) : issue s = .next s.idle := by
  unfold issue
  split
  · rfl
  · exact if_pos h

theorem issue_of_decode {s : State} {w : Word} {i : Instr} (hfetch : s.fetch = some w) (hnop : s.nopLeft = 0)
    (hdec : decode s.cfg.regsPerFile w = .ok i) : issue s = exec i s := by
  simp [issue, hfetch, hnop, hdec]

/-- The cycle of a running state after its landings (R183): issue, then count. -/
theorem step_of_land {s s1 : State} (hrun : Running s) (hland : land s = .next s1) :
    step s = andThen (issue s1) fun s2 => .next s2.tick := by
  rw [step_of_running hrun, runCycle, hland, andThen_next]

/-! ### The cycles a NOP occupies -/

/-- Landing nothing, a cycle that a NOP occupies only counts. -/
theorem step_of_nopLeft_ne_zero {s : State} (hrun : Running s) (hpend : s.pending = []) (hnop : s.nopLeft ≠ 0) :
    step s = .next s.idle.tick := by
  rw [step_of_land hrun (land_of_pending_nil hpend), issue_of_nopLeft_ne_zero hnop, andThen_next]

/-- As many steps as a NOP still occupies cycles, or fewer, only count; `pc` may be at the end of `prog` (log 15). -/
theorem run_of_le_nopLeft {s : State} (hrun : Running s) (hpend : s.pending = []) {k : Nat} (hk : k ≤ s.nopLeft) :
    run k s = .next { s with t := s.t + k, nopLeft := s.nopLeft - k } := by
  induction k generalizing s with
  | zero => rfl
  | succ k ih =>
    have hstep := step_of_nopLeft_ne_zero hrun hpend (by omega)
    have hrun' : Running s.idle.tick := ⟨hrun.noFault, hrun.noRefusal, hrun.legalAmr⟩
    have hk' : k ≤ s.nopLeft - 1 := by omega
    calc run (k + 1) s
      _ = run k s.idle.tick := by rw [run, hstep, andThen_next]
      _ = .next { s with t := s.t + 1 + k, nopLeft := s.nopLeft - 1 - k } := ih hrun' hpend hk'
      _ = .next { s with t := s.t + (k + 1), nopLeft := s.nopLeft - (k + 1) } := by
        rw [Nat.add_right_comm s.t 1 k, Nat.sub_right_comm s.nopLeft 1 k]; rfl

/-- Settles O36: the first step issues the NOP, and each further one counts one of its cycles. -/
theorem nopOccupiesItsCycles : Obligations.NopOccupiesItsCycles := by
  intro s w cnt hrun hpend hnop hfetch hdec
  have hstep : step s = .next { s with pc := s.pc + 1, t := s.t + 1, nopLeft := cnt.toNat } := by
    rw [step_of_land hrun (land_of_pending_nil hpend), issue_of_decode hfetch hnop hdec, nopCompletes, andThen_next]
    rfl
  have hrun' : Running { s with pc := s.pc + 1, t := s.t + 1, nopLeft := cnt.toNat } :=
    ⟨hrun.noFault, hrun.noRefusal, hrun.legalAmr⟩
  have hstages : ∀ k ≤ cnt.toNat,
      run (k + 1) s = .next { s with pc := s.pc + 1, t := s.t + (k + 1), nopLeft := cnt.toNat - k } := by
    intro k hk
    rw [run, hstep, andThen_next, run_of_le_nopLeft hrun' hpend hk, Nat.add_assoc, Nat.add_comm 1 k]
  refine ⟨?_, hstages⟩
  rw [hstages _ le_rfl, Nat.sub_self, hnop]

end Sys2Proof.Machine
end

section
/-! PROOFS. Stops and the end of a run (60_exceptions.md): the landing and its conflict, what `cycle` holds where the step
stops, and the draining of the writes in flight. -/

namespace Sys2Proof.Machine

/-! ### The landing and its conflict -/

theorem land_of_nodup {s : State} (h : (s.due.map PendingWrite.reg).Nodup) : land s = .next s.landed :=
  land_eq_next.mpr ⟨h, rfl⟩

theorem land_of_not_nodup {s : State} (h : ¬ (s.due.map PendingWrite.reg).Nodup) :
    ∃ r, land s = .fault (.writeConflict r) := by
  obtain ⟨r, hr⟩ := Option.ne_none_iff_exists'.mp (mt conflict_eq_none.mp h)
  exact ⟨r, by simp [land, hr]⟩

/-- Where the landing faults, nothing issues. -/
theorem step_of_land_fault {s : State} {f : Fault} (hrun : Running s) (hland : land s = .fault f) : step s = .fault f := by
  rw [step_of_running hrun, runCycle, hland, andThen_fault]

/-! ### Stops -/

/-- The cycle of a running state asks neither for a mark nor for AMR (R26, R183). -/
theorem cycle_of_running {s : State} (h : Running s) :
    cycle s = mark s (fun s1 => mark s1 State.tick (issue s1)) (land s) := by
  have hm : s.marked = false := by simp [State.marked, h.noFault, h.noRefusal]
  simp [cycle, hm, h.legalAmr]

/-- With the due writes landed, a stop sets its mark over the landings (log 12). -/
theorem cycle_of_nodup {s : State} (hrun : Running s) (hnd : (s.due.map PendingWrite.reg).Nodup) :
    cycle s = mark s.landed id (step s) := by
  rw [cycle_of_running hrun, step_of_land hrun (land_of_nodup hnd), land_of_nodup hnd, mark]
  cases issue s.landed <;> rfl

/-- With two due writes in conflict, the fault is marked over the state as it was (log 12). -/
theorem cycle_of_not_nodup {s : State} (hrun : Running s) (hnd : ¬ (s.due.map PendingWrite.reg).Nodup) :
    cycle s = mark s id (step s) := by
  obtain ⟨r, hland⟩ := land_of_not_nodup hnd
  rw [cycle_of_running hrun, step_of_land_fault hrun hland, hland]
  rfl

/-- The cycle is the outcome of `step`, marked over a state that has landed its due writes or is `s` itself. -/
theorem cycle_eq_mark {s : State} (hrun : Running s) :
    ∃ s1, (s1 = s.landed ∨ s1 = s) ∧ cycle s = mark s1 id (step s) := by
  by_cases hnd : (s.due.map PendingWrite.reg).Nodup
  · exact ⟨_, .inl rfl, cycle_of_nodup hrun hnd⟩
  · exact ⟨_, .inr rfl, cycle_of_not_nodup hrun hnd⟩

/-- A stop changes no field but the marks. -/
theorem mark_of_stop {s : State} {f : State → State} {x : Result State} (h : ∀ s', x ≠ .next s') :
    mark s f x = { s with fault := (mark s f x).fault, refused := (mark s f x).refused } := by
  cases x with
  | next s' => exact absurd rfl (h s')
  | fault => rfl
  | refused => rfl

theorem reg_mark_of_stop {s : State} {f : State → State} {x : Result State} (h : ∀ s', x ≠ .next s') (r : Reg) :
    (mark s f x).reg r = s.reg r :=
  State.reg_congr (congrArg State.regsA (mark_of_stop h)) (congrArg State.regsB (mark_of_stop h)) r

theorem pending_mark_of_stop {s : State} {f : State → State} {x : Result State} (h : ∀ s', x ≠ .next s') :
    (mark s f x).pending = s.pending :=
  (congrArg State.pending (mark_of_stop h) :)

/-- Settles O53: `cycle` is the outcome of `step` marked over the landed state, or over `s` where the landing faults. -/
theorem stopKeepsLandingsAndSetsMark : Obligations.StopKeepsLandingsAndSetsMark := by
  intro s hrun
  obtain ⟨s1, hs1, hcycle⟩ := cycle_eq_mark hrun
  have hunmarked : s1.fault = none ∧ s1.refused = none := by
    rcases hs1 with rfl | rfl <;> simp [hrun.noFault, hrun.noRefusal]
  refine ⟨fun s' h => ?_, fun f h => ?_, fun r h => ?_, fun hstop => ⟨?_, fun hnd => ?_, fun hnd => ?_⟩⟩
  · rw [hcycle, h]; rfl
  · rw [hcycle, h]; exact ⟨rfl, hunmarked.2⟩
  · rw [hcycle, h]; exact ⟨rfl, hunmarked.1⟩
  · rw [hcycle, mark_of_stop hstop]
    rcases hs1 with rfl | rfl <;> simp
  · rw [cycle_of_nodup hrun hnd]
    simp only [pending_mark_of_stop hstop, reg_mark_of_stop hstop]
    exact ⟨s.pending_landed, fun e he ht => s.reg_landed_of_due hnd he ht, s.reg_landed_of_not_due⟩
  · rw [cycle_of_not_nodup hrun hnd]
    exact ⟨pending_mark_of_stop hstop, reg_mark_of_stop hstop⟩

/-! ### Draining -/

theorem issue_of_fetch_none {s : State} (h : s.fetch = none) : issue s = .next s.idle := by
  simp [issue, h]

/-- There is no word at the end of `prog` (R171). -/
theorem State.fetch_at_end {s : State} (h : s.pc = s.cfg.prog.length) : s.fetch = none :=
  List.getElem?_eq_none h.ge

/-- At the end of `prog` a cycle only lands and counts, unless two due writes conflict (R171, R185). -/
theorem step_at_end {s : State} (hrun : Running s) (hpc : s.pc = s.cfg.prog.length) :
    step s = .next s.landed.idle.tick ∨ ∃ r, step s = .fault (.writeConflict r) := by
  by_cases hnd : (s.due.map PendingWrite.reg).Nodup
  · have hfetch : s.landed.fetch = none := State.fetch_at_end (by simpa using hpc)
    left
    rw [step_of_land hrun (land_of_nodup hnd), issue_of_fetch_none hfetch, andThen_next]
  · obtain ⟨r, hland⟩ := land_of_not_nodup hnd
    exact .inr ⟨r, step_of_land_fault hrun hland⟩

theorem Running.landed_idle_tick {s : State} (h : Running s) : Running s.landed.idle.tick where
  noFault := by simpa using h.noFault
  noRefusal := by simpa using h.noRefusal
  legalAmr := by simpa using h.legalAmr

theorem final_of_pending_nil {s : State} (hrun : Running s) (hpc : s.pc = s.cfg.prog.length) (h : s.pending = []) :
    s.final = true := by
  simp [State.final, State.marked, hpc, h, hrun.noFault, hrun.noRefusal]

/-- At the end of `prog`, as many steps as the pending writes need to land make the run final, unless two conflict. -/
theorem run_final_or_conflict {n : Nat} {s : State} (hrun : Running s) (hpc : s.pc = s.cfg.prog.length)
    (hwindow : ∀ e ∈ s.pending, s.t ≤ e.landing ∧ e.landing < s.t + n) :
    (∃ s', run n s = .next s' ∧ s'.final = true ∧ s'.mem = s.mem) ∨ ∃ r, run n s = .fault (.writeConflict r) := by
  induction n generalizing s with
  | zero =>
    have hnil : s.pending = [] := List.eq_nil_iff_forall_not_mem.mpr fun e he => by
      have := hwindow e he
      omega
    exact .inl ⟨s, rfl, final_of_pending_nil hrun hpc hnil, rfl⟩
  | succ n ih =>
    rcases step_at_end hrun hpc with hstep | ⟨r, hstep⟩
    · have hpc' : s.landed.idle.tick.pc = s.landed.idle.tick.cfg.prog.length := by simpa using hpc
      have hwindow' : ∀ e ∈ s.landed.idle.tick.pending,
          s.landed.idle.tick.t ≤ e.landing ∧ e.landing < s.landed.idle.tick.t + n := by
        intro e he
        obtain ⟨hmem, hne⟩ := State.mem_pending_landed.mp he
        have := hwindow e hmem
        simp only [State.t_tick, State.t_idle, State.t_landed]
        omega
      simpa only [run, hstep, andThen_next, State.mem_tick, State.mem_idle, State.mem_landed]
        using ih hrun.landed_idle_tick hpc' hwindow'
    · exact .inr ⟨r, by rw [run, hstep, andThen_fault]⟩

/-- Settles O51: the invariant's window lets every pending write land within five steps (log 18). -/
theorem runDrains : Obligations.RunDrains := by
  intro s hrun hinv hpc
  refine run_final_or_conflict hrun hpc fun e he => ?_
  have := hinv.window e he
  omega

end Sys2Proof.Machine
end

section
/-! PROOFS. Reset and hazards (70_reset_and_hazards.md): the landing of the due writes, the write conflict, a write in flight,
the order of a step, and the phases of the pipeline. -/

namespace Sys2Proof.Machine

/-! ### Landing -/

/-- Settles O44: without a conflict landing answers the landed state, in which each due write stands in its own register. -/
theorem landingWritesDueValues : Obligations.LandingWritesDueValues := by
  intro s hnd
  refine ⟨s.landed, land_of_nodup hnd, fun e he ht => s.reg_landed_of_due hnd he ht, s.reg_landed_of_not_due,
    s.pending_landed, ?_⟩
  rw [s.pending_landed]
  exact s.landed_eq

/-! ### The write conflict -/

/-- The register that `conflict` names is named by at least two of the writes (R185). -/
theorem two_le_length_of_conflict {l : List PendingWrite} {r : Reg} (h : conflict l = some r) :
    2 ≤ (l.filter fun e => e.reg == r).length := by
  induction l with
  | nil => cases h
  | cons e l ih =>
    rw [conflict] at h
    split at h
    · next hany =>
      cases h
      obtain ⟨e', he', heq⟩ := List.any_eq_true.mp hany
      have htail : 0 < (l.filter fun x => x.reg == e.reg).length :=
        List.length_pos_of_mem (List.mem_filter.mpr ⟨he', heq⟩)
      simp only [List.filter_cons, beq_self_eq_true, if_true, List.length_cons]
      omega
    · exact (ih h).trans ((List.sublist_cons_self e l).filter _).length_le

/-- The outcome is no write conflict. -/
def NoConflict {α : Type} (x : Result α) : Prop := ∀ r, x ≠ .fault (.writeConflict r)

theorem noConflict_next {α : Type} (a : α) : NoConflict (.next a) := nofun

theorem noConflict_refused {α : Type} (r : Refusal) : NoConflict (.refused r : Result α) := nofun

/-- A fault of another kind is no write conflict. -/
theorem noConflict_fault {α : Type} {f : Fault} (h : ∀ r, f ≠ .writeConflict r) : NoConflict (.fault f : Result α) :=
  fun r hr => h r (Host.Outcome.fault.inj hr)

theorem NoConflict.andThen {α β : Type} {x : Result α} {f : α → Result β} (hx : NoConflict x)
    (hf : ∀ a, NoConflict (f a)) : NoConflict (andThen x f) := by
  cases x with
  | next a => exact hf a
  | fault g => exact noConflict_fault fun r hg => hx r (congrArg _ hg)
  | refused r => exact noConflict_refused r

theorem noConflict_orRefuse {α : Type} (x : Except Refusal α) : NoConflict (orRefuse x) := by
  cases x with
  | ok a => exact noConflict_next a
  | error r => exact noConflict_refused r

theorem noConflict_checkAlloc (c : Config) (as : List Word) : NoConflict (checkAlloc c as) := by
  induction as with
  | nil => exact noConflict_next ()
  | cons a as ih =>
    rw [checkAlloc]
    split
    · exact ih
    · exact noConflict_fault nofun

theorem noConflict_readAll (m : Memory) (as : List Word) : NoConflict (readAll m as) := by
  induction as with
  | nil => exact noConflict_next []
  | cons a as ih =>
    rw [readAll]
    split
    · exact noConflict_fault nofun
    · exact ih.andThen fun _ => noConflict_next _

theorem noConflict_access (len : DataLen) (al : Bool) (ad : Addressing) (s : State) : NoConflict (access len al ad s) := by
  refine (noConflict_orRefuse _).andThen fun N => ?_
  split
  · exact noConflict_fault nofun
  · dsimp only
    split
    · exact noConflict_fault nofun
    · exact noConflict_next _

theorem noConflict_load (len : DataLen) (al : Bool) (results : BitVec 64 → List (Reg × Word)) (ad : Addressing)
    (s : State) : NoConflict (load len al results ad s) :=
  (noConflict_access len al ad s).andThen fun _ =>
    ((noConflict_checkAlloc _ _).andThen fun _ => (noConflict_readAll _ _).andThen fun _ => noConflict_next _).andThen
      fun _ => noConflict_next _

theorem noConflict_store (len : DataLen) (al : Bool) (d : BitVec 64) (ad : Addressing) (s : State) :
    NoConflict (store len al d ad s) :=
  (noConflict_access len al ad s).andThen fun _ =>
    ((noConflict_checkAlloc _ _).andThen fun _ => noConflict_next _).andThen fun _ => noConflict_next _

theorem noConflict_addrAdd (len : DataLen) (sgn : Sign) (unit : DUnit) (src2 : RegIdx) (off : Offset) (dst : RegIdx)
    (s : State) : NoConflict (addrAdd len sgn unit src2 off dst s) :=
  (noConflict_orRefuse _).andThen fun _ => noConflict_next _

/-- No instruction raises the conflict: only the landing does (R183, R185). -/
theorem noConflict_exec (i : Instr) (s : State) : NoConflict (exec i s) := by
  cases i with
  | ldhu | ldbu | ldb | ldh | ldw | ldnw | lddw => exact noConflict_load _ _ _ _ _
  | ldhu15 | ldbu15 | ldb15 | ldh15 | ldw15 => exact noConflict_load _ _ _ _ _
  | stb | sth | stw | stnw | stdw | stb15 | sth15 | stw15 => exact noConflict_store _ _ _ _ _
  | nop => exact noConflict_next _
  | mpyh | ldndw | stndw => exact noConflict_refused _
  | _ => exact noConflict_addrAdd _ _ _ _ _ _ _

theorem noConflict_issue (s : State) : NoConflict (issue s) := by
  unfold issue
  split
  · exact noConflict_next _
  · split
    · exact noConflict_next _
    · split
      · exact noConflict_refused _
      · exact noConflict_exec _ _

/-- Settles O45: the landing comes first and names a register written twice; nothing after it raises that fault. -/
theorem writeConflictFaults : Obligations.WriteConflictFaults := by
  refine fun s hrun => ⟨fun hnd => ?_, fun hnd => ?_⟩
  · obtain ⟨r, hr⟩ := Option.ne_none_iff_exists'.mp (mt conflict_eq_none.mp hnd)
    exact ⟨r, step_of_land_fault hrun (by rw [land, hr]), two_le_length_of_conflict hr⟩
  · rw [step_of_land hrun (land_of_nodup hnd)]
    exact (noConflict_issue _).andThen fun _ => noConflict_next _

/-! ### A write in flight -/

/-- A step changes registers by its landings only (R183). -/
theorem reg_step {s s' : State} (hstep : step s = .next s') (r : Reg) : s'.reg r = s.landed.reg r := by
  obtain ⟨-, -, -, -, -, hreg, -⟩ := step_frame hstep
  exact hreg r

/-- Settles O47: nothing lands in the register, and a step changes it by a landing only. -/
theorem registerKeepsValueUntilLanding : Obligations.RegisterKeepsValueUntilLanding := by
  intro s s' r hstep hdue
  rw [reg_step hstep, s.reg_landed_of_not_due r hdue]

/-- A write due in this cycle is in its register after the step (R183). -/
theorem reg_step_of_due {s s' : State} {e : PendingWrite} (hstep : step s = .next s') (he : e ∈ s.pending)
    (hdue : e.landing = s.t) : s'.reg e.reg = e.value := by
  obtain ⟨-, hnd, -⟩ := step_next hstep
  rw [reg_step hstep, s.reg_landed_of_due hnd he hdue]

/-- A write due in a later cycle stays in flight through the step (R183). -/
theorem mem_pending_step_of_not_due {s s' : State} {e : PendingWrite} (hstep : step s = .next s') (he : e ∈ s.pending)
    (hdue : e.landing ≠ s.t) : e ∈ s'.pending := by
  obtain ⟨-, -, -, -, -, -, ws, hpend, -⟩ := step_frame hstep
  rw [hpend]
  exact List.mem_append_left ws (List.mem_filter.mpr ⟨he, bne_iff_ne.mpr hdue⟩)

/-- Settles O46, by induction on the run: the write stays in flight up to the cycle in which it is due, the last of the run. -/
theorem pendingWriteLandsOnTime : Obligations.PendingWriteLandsOnTime := by
  intro n
  induction n with
  | zero =>
    intro s s' e _ hle hrun hend
    cases hrun
    omega
  | succ n ih =>
    intro s s' e he hle hrun hend
    obtain ⟨s1, hstep, hrest⟩ := andThen_eq_next.mp hrun
    obtain ⟨-, -, ht, -⟩ := step_frame hstep
    by_cases hdue : e.landing = s.t
    · obtain rfl : n = 0 := by
        have := run_t hrest
        omega
      cases hrest
      exact reg_step_of_due hstep he hdue
    · exact ih s1 s' e (mem_pending_step_of_not_due hstep he hdue) (by omega) hrest hend

/-! ### The order of a step -/

theorem issue_of_decode_error {s : State} {w : Word} {r : Reject} (hfetch : s.fetch = some w) (hnop : s.nopLeft = 0)
    (hdec : decode s.cfg.regsPerFile w = .error r) : issue s = .refused (.word r) := by
  simp [issue, hfetch, hnop, hdec]

/-- Settles O42: what the word at `pc` issues after the landing is the outcome of the step (R183, R164). -/
theorem stepRunsDecodedInstruction : Obligations.StepRunsDecodedInstruction := by
  intro s s1 w hrun hland hfetch hnop
  have hstep := step_of_land hrun hland
  refine ⟨fun i hdec => ?_, fun r hdec => ?_⟩
  · rw [issue_of_decode hfetch hnop hdec] at hstep
    refine ⟨fun t h => ?_, fun f h => ?_, fun r h => ?_⟩
    · rw [hstep, h, andThen_next, State.tick]
    · rw [hstep, h, andThen_fault]
    · rw [hstep, h, andThen_refused]
  · rw [hstep, issue_of_decode_error hfetch hnop hdec, andThen_refused]

/-- Settles O43: in either case nothing issues, so after the landing the cycle is only counted (log 15). -/
theorem stepWithoutIssueOnlyLands : Obligations.StepWithoutIssueOnlyLands := by
  intro s s1 hrun hland hidle
  have hissue : issue s1 = .next s1.idle := by
    rcases hidle with hnop | hpc
    · exact issue_of_nopLeft_ne_zero hnop
    · exact issue_of_fetch_none (State.fetch_at_end hpc)
  rw [step_of_land hrun hland, hissue, andThen_next, State.tick, State.idle]

/-! ### The pipeline -/

/-- Settles O57, by evaluating the phases of each stage. -/
theorem pipelinePhases : Obligations.PipelinePhases := by
  unfold Obligations.PipelinePhases
  decide

end Sys2Proof.Machine
end

section
/-! PROOFS. Worked words of the spec (95_test_vectors.md). -/

namespace Sys2Proof

/-- Settles O3: each word is closed, so the decoder evaluates on it. -/
theorem sampleWordsDecode : Obligations.SampleWordsDecode :=
  ⟨rfl, rfl, rfl, rfl, rfl, rfl, rfl, rfl, rfl, rfl⟩

end Sys2Proof
end
